-- ==== Sys2Proof/Word.lean ====
section
/-! DEFINITION. The word types of the CORE: its byte and its nine-bit program counter. -/

namespace Sys2Proof

/-- A memory cell, a register, an instruction byte: `u8`, unsigned (00_scope.md section 5, R35). -/
abbrev Byte := BitVec 8

/-- The program counter: 8 architected bits and one carry bit (R10, R19). -/
abbrev PcWord := BitVec 9

end Sys2Proof
end

