-- ==== Sys2Proof/Config.lean ====
section
/-! DEFINITION. What R3 fixes for the machine, and the one value the spec leaves free. -/

namespace Sys2Proof

/-- `MEM_SIZE` (R3). -/
def Config.memSize : Nat := 256

/-- `SP_INIT`, the stack pointer of the empty stack (R3, R13). -/
def Config.spInit : Byte := 0xF4

/-- What a cell that nothing has written reads as: `MEM_RESET`, every cell 0 (R3, R24). -/
def Config.unlistedByte : Byte := 0

/-- `X_RESET` (R3, R24; the spec's decision D3). UNVERIFIED: log entry 3, unsafe. -/
def Config.xReset : Byte := 0

/-- `FL_RESET` (R3, R24; the spec's decision D4). UNVERIFIED: log entry 4, unsafe. -/
def Config.flReset : Byte := 0

/-- `PC_RESET` (R3, R24; the spec's decision D5). UNVERIFIED: log entry 5, unsafe. -/
def Config.pcReset : PcWord := 0

/-- A free value: the exit status a faulted run gives the host is this plus one, for the ordinal of the
fatal error's kind. R141 and R153 say only "non-zero" (U17: any value). DESIGN CHOICE: log entry 27, safe. -/
opaque Config.faultExitStatusExcess : Nat → Nat

end Sys2Proof
end

