-- ==== Sys2Proof/Machine/State.lean ====
section
/-! DEFINITION. The whole state of the CORE (10_state.md R10), why a step can stop, and the state after reset (R24). -/

namespace Sys2Proof.Machine

/-- The run state of the Execution Loop (R20). -/
inductive Mode where
  /-- After reset and before `run()`: no instruction executes. -/
  | idle
  /-- One step after another. -/
  | running
  /-- Terminal: HLT was executed. -/
  | halted
  /-- Terminal: a fatal error was raised. -/
  | faulted
  deriving DecidableEq, Repr

/-- The kinds of fatal error (R142), in the order of its ordinals 1 to 7. -/
inductive FatalKind where
  /-- The byte at `pc` is none of the 29 opcodes. -/
  | unknownOpcode
  /-- An access at an address of 256 or more. -/
  | outOfBoundsAccess
  /-- PUSH or CALL with `sp - 1 <= pc + 1`. -/
  | stackOverflow
  /-- POP or RET with `sp = 0xF4`. -/
  | stackUnderflow
  /-- DIV with a divisor register that holds 0. -/
  | divisionByZero
  /-- MOD with a divisor register that holds 0. -/
  | moduloByZero
  /-- A register operand byte above 7 (the spec's own kind, D8). -/
  | invalidRegister
  deriving DecidableEq, Repr

/-- What a fatal error records beside its kind and `pc` (R21, R142). -/
inductive FaultInfo where
  /-- Nothing further. -/
  | none
  /-- The opcode byte fetched. -/
  | opcode (b : Byte)
  /-- The int address, 256 or more. -/
  | address (a : Nat)
  /-- The register operand byte. -/
  | index (b : Byte)
  deriving DecidableEq, Repr

/-- The fatal-error report `(kind, pc, info)` (R21). -/
structure FaultRecord where
  kind : FatalKind
  pc : PcWord
  info : FaultInfo
  deriving DecidableEq, Repr

/-- An event handed to the output sink (R22). -/
inductive OutEvent where
  /-- From PRN: a number 0..255. -/
  | num (v : Byte)
  /-- From PRA: a character code 0..255. -/
  | chr (v : Byte)
  deriving DecidableEq, Repr

/-- Memory in canonical form: addresses strictly rising, every address below 256, no cell that reads as
an unlisted one does (`Memory.wf`). An unlisted cell reads as `Config.unlistedByte`. -/
abbrev Memory := List Host.Cell

/-- The canonical form, from the lowest address still allowed. -/
def Memory.wfFrom (lo : Nat) : Memory → Bool
  | [] => true
  | (a, v) :: rest =>
    decide (lo ≤ a) && decide (a < Config.memSize) && (v != Config.unlistedByte) && Memory.wfFrom (a + 1) rest

/-- The memory is in canonical form. -/
def Memory.wf (m : Memory) : Bool := Memory.wfFrom 0 m

/-- The state of the CORE: R10's tuple and nothing else (R23). -/
structure State where
  /-- The one memory: program, data and stack (R30). -/
  mem : Memory
  /-- R0..R7 (R11). -/
  x : Vector Byte 8
  /-- The dedicated stack pointer (R13). -/
  sp : Byte
  /-- The flags byte: E bit 0, L bit 1, G bit 2 (R15). -/
  fl : Byte
  /-- The program counter with its carry bit (R17, R19). -/
  pc : PcWord
  /-- The run state (R20). -/
  mode : Mode
  /-- The fatal-error report, if one was raised (R21). -/
  fault : Option FaultRecord
  /-- The output events since reset, oldest first (R22). -/
  out : List OutEvent
  deriving DecidableEq, Repr

/-- Why `step` stops instead of answering a next state: the run has already ended. The spec's fatal
errors are NOT here: raising one is a next state with mode Faulted (R141; log entry 23). -/
inductive Fault where
  /-- `step` of a Halted machine: "no further instructions execute" (R20, R115). Safe (log entry 24). -/
  | halted
  /-- `step` of a Faulted machine: "no further step occurs" (R115, R144). Safe (log entry 24). -/
  | faulted
  deriving DecidableEq, Repr

/-- What is refused: a step before `run()`, and the host's calls that the spec refuses. -/
inductive Refusal where
  /-- Raised by `exec` for an instruction without a meaning; no arm does. Safe. -/
  | notModelled (mnemonic : String)
  /-- `step` of an Idle machine: it waits for the host's `run()` (R20, R110, R113). Safe (log entry 24). -/
  | notStarted
  /-- A host call in a mode that does not allow it (R152, R153, R154). Safe: the CORE is unchanged. -/
  | callNotAllowed
  /-- `read_register` above 7 (R154). Safe: the CORE is unchanged. -/
  | noSuchRegister
  /-- `peek_memory` above 255 (R154). Safe: the CORE is unchanged. -/
  | noSuchCell
  deriving DecidableEq, Repr

/-- The machine right after reset (R24, R160). -/
def State.reset : State where
  mem := []
  x := Vector.replicate 8 Config.xReset
  sp := Config.spInit
  fl := Config.flReset
  pc := Config.pcReset
  mode := .idle
  fault := none
  out := []

end Sys2Proof.Machine
end

