-- ==== Sys2Proof/Machine/Ops.lean ====
section
/-! DEFINITION. The named operations over memory, registers, the stack, the program counter and the fatal error. -/

namespace Sys2Proof.Machine

/-- What a step answers. -/
abbrev Answer := Host.Outcome State Fault Refusal

/-! ## Memory (20_memory.md) -/

/-- The byte a cell holds. -/
def Memory.load : Memory → Nat → Byte
  | [], _ => Config.unlistedByte
  | (k, v) :: rest, a => if k = a then v else Memory.load rest a

/-- The memory without any entry for `a`. -/
def Memory.erase (m : Memory) (a : Nat) : Memory := m.filter fun c => c.1 != a

/-- The memory with an entry for `a` put in at its place by address. -/
def Memory.place : Memory → Nat → Byte → Memory
  | [], a, v => [(a, v)]
  | (k, w) :: rest, a, v => if a < k then (a, v) :: (k, w) :: rest else (k, w) :: Memory.place rest a v

/-- The memory with `v` in cell `a`, again in canonical form. -/
def Memory.store (m : Memory) (a : Nat) (v : Byte) : Memory :=
  if v = Config.unlistedByte then m.erase a else (m.erase a).place a v

/-- The cells of memory from `a` to the top, in ascending order. -/
def Memory.bytesFrom (m : Memory) (a : Nat) : List Byte := (List.range' a (Config.memSize - a)).map m.load

/-! ## The fatal error (60_exceptions.md R141) -/

/-- `raise Kind(info)` (R141): the record takes `kind`, `pc` and `info`, the mode becomes Faulted, and
nothing else changes; `pc` is not advanced. There is no return from it (R144). -/
def raise (kind : FatalKind) (info : FaultInfo) (s : State) : Answer :=
  .next { s with fault := some ⟨kind, s.pc, info⟩, mode := .faulted }

/-- The spec's ordinals of the kinds (R142, D17). -/
def FatalKind.ordinal : FatalKind → Nat
  | .unknownOpcode => 1
  | .outOfBoundsAccess => 2
  | .stackOverflow => 3
  | .stackUnderflow => 4
  | .divisionByZero => 5
  | .moduloByZero => 6
  | .invalidRegister => 7

/-- The diagnostic text the source gives for a kind, where it gives one (R142). -/
def FatalKind.diagnostic : FatalKind → Option String
  | .unknownOpcode => some "unknown instruction at address X"
  | .outOfBoundsAccess => some "address out of range"
  | .stackOverflow => some "stack overflow"
  | .stackUnderflow => some "stack is empty"
  | .divisionByZero => none
  | .moduloByZero => none
  | .invalidRegister => none

/-! ## Accesses with their range check -/

/-- `MemRead(addr, 1)` (R31). -/
def memRead (addr : Nat) (s : State) (k : Byte → Answer) : Answer :=
  if Config.memSize ≤ addr then raise .outOfBoundsAccess (.address addr) s else k (s.mem.load addr)

/-- `MemWrite(addr, 1, v)` (R32). -/
def memWrite (addr : Nat) (v : Byte) (s : State) (k : State → Answer) : Answer :=
  if Config.memSize ≤ addr then raise .outOfBoundsAccess (.address addr) s
  else k { s with mem := s.mem.store addr v }

/-! ## Registers, program counter, output -/

/-- `x[i]` (R11). -/
def State.reg (s : State) (i : Fin 8) : Byte := s.x[i.val]

/-- `x[i] <- v` (R11, R12). -/
def State.setReg (s : State) (i : Fin 8) (v : Byte) : State := { s with x := s.x.set i.val v }

/-- The auto-advance past an instruction of `n` bytes: a nine-bit sum (R19, R112). -/
def State.advance (s : State) (n : Nat) : State := { s with pc := s.pc + BitVec.ofNat 9 n }

/-- `pc <- target`, the target a `u8` (R116). -/
def State.jumpTo (s : State) (target : Byte) : State := { s with pc := target.setWidth 9 }

/-- `Emit(ev)` (R22). -/
def State.emit (s : State) (ev : OutEvent) : State := { s with out := s.out ++ [ev] }

/-! ## The stack (41_stack_call.md) -/

/-- `STACK_GUARD` (R3; D9, C2). UNVERIFIED: log entry 8, safe at the one differing case. -/
def stackGuard : Nat := 1

/-- The overflow check `sp - 1 <= pc + 1`, in int arithmetic (R100). -/
def State.stackFull (s : State) : Bool := decide ((s.sp.toNat : Int) - 1 ≤ (s.pc.toNat : Int) + (stackGuard : Int))

/-- Push a byte: the overflow check, then `sp <- sp - 1` and the write at the new `sp` (R100, R102). -/
def pushByte (v : Byte) (s : State) (k : State → Answer) : Answer :=
  if s.stackFull then raise .stackOverflow .none s
  else memWrite (s.sp - 1).toNat v s fun t => k { t with sp := s.sp - 1 }

/-- Pop a byte: the empty check, then the read at `sp` and `sp <- sp + 1` (R101, R103). -/
def popByte (s : State) (k : Byte → State → Answer) : Answer :=
  if s.sp = Config.spInit then raise .stackUnderflow .none s
  else memRead s.sp.toNat s fun v => k v { s with sp := s.sp + 1 }

end Sys2Proof.Machine
end

