-- ==== Sys2Proof/Machine/Flags.lean ====
section
/-! DEFINITION. The flags byte: its bits, what CMP computes, and the conditions of the jumps. -/

namespace Sys2Proof.Machine

/-- `fl.E`, bit 0 (R15). -/
def flagE (fl : Byte) : Bool := fl.getLsbD 0

/-- `fl.L`, bit 1 (R15). -/
def flagL (fl : Byte) : Bool := fl.getLsbD 1

/-- `fl.G`, bit 2 (R15). -/
def flagG (fl : Byte) : Bool := fl.getLsbD 2

/-- The byte CMP writes: G, E or L alone, by the unsigned order (R87; bits 7:3 zero, D26: log entry 21). -/
def compareFlags (va vb : Byte) : Byte :=
  if vb.toNat < va.toNat then 0x04 else if va = vb then 0x01 else 0x02

/-- JEQ's condition (R119). -/
def condEq (fl : Byte) : Bool := flagE fl

/-- JNE's condition (R120; D15: log entry 14). -/
def condNe (fl : Byte) : Bool := !flagE fl

/-- JLT's condition (R121). -/
def condLt (fl : Byte) : Bool := flagL fl

/-- JLE's condition (R122; D15: log entry 14). -/
def condLe (fl : Byte) : Bool := flagL fl || flagE fl

/-- JGT's condition (R123). -/
def condGt (fl : Byte) : Bool := flagG fl

/-- JGE's condition (R124; D15: log entry 14). -/
def condGe (fl : Byte) : Bool := flagG fl || flagE fl

end Sys2Proof.Machine
end

