-- ==== Sys2Proof/Machine/Operands.lean ====
section
/-! DEFINITION. The operand forms: the register check (R54) and the shapes instructions share. -/

namespace Sys2Proof.Machine

/-- `Reg(b)` (R54): the register a byte names, or the fatal `InvalidRegister(index = b)` (D8: log entry 7). -/
def withReg (b : Byte) (s : State) (k : Fin 8 → Answer) : Answer :=
  if h : b.toNat < 8 then k ⟨b.toNat, h⟩ else raise .invalidRegister (.index b) s

/-- Two register operands, checked in operand order (R111). -/
def withRegs (a b : Byte) (s : State) (k : Fin 8 → Fin 8 → Answer) : Answer :=
  withReg a s fun ra => withReg b s fun rb => k ra rb

/-- Format R, one register replaced by a function of itself (R70): two bytes. -/
def unaryAlu (f : Byte → Byte) (a : Byte) (s : State) : Answer :=
  withReg a s fun ra => .next ((s.setReg ra (f (s.reg ra))).advance 2)

/-- Format RR, the first register replaced by a function of both (R70): three bytes. -/
def binaryAlu (f : Byte → Byte → Byte) (a b : Byte) (s : State) : Answer :=
  withRegs a b s fun ra rb => .next ((s.setReg ra (f (s.reg ra) (s.reg rb))).advance 3)

/-- Format RR with a divisor: the fatal `kind` when the second register holds 0 (R77, R78). -/
def divideAlu (kind : FatalKind) (f : Byte → Byte → Byte) (a b : Byte) (s : State) : Answer :=
  withRegs a b s fun ra rb =>
    if s.reg rb = 0 then raise kind .none s
    else .next ((s.setReg ra (f (s.reg ra) (s.reg rb))).advance 3)

/-- A conditional jump: the register is checked whether or not the condition holds (R111, R119 to R124). -/
def condJump (cond : Byte → Bool) (a : Byte) (s : State) : Answer :=
  withReg a s fun ra => .next (if cond s.fl then s.jumpTo (s.reg ra) else s.advance 2)

/-- An output instruction: one event made of a register (R131, R132). -/
def printReg (event : Byte → OutEvent) (a : Byte) (s : State) : Answer :=
  withReg a s fun ra => .next ((s.emit (event (s.reg ra))).advance 2)

end Sys2Proof.Machine
end

