-- ==== Sys2Proof/Machine/Alu.lean ====
section
/-! DEFINITION. The ALU: its bit-level algorithms (R71 to R73) and its fourteen instructions (40_alu.md). -/

namespace Sys2Proof.Machine

/-! ## The algorithms -/

/-- One pass of `Add8`: partial sum and 8-bit carry vector (R71; D12: log entry 11). -/
def addPass (p : Byte × Byte) : Byte × Byte := (p.1 ^^^ p.2, (p.1 &&& p.2) <<< 1)

/-- One pass of `Sub8`: partial difference and 8-bit borrow vector (R72; D12: log entry 11). -/
def subPass (p : Byte × Byte) : Byte × Byte := (p.1 ^^^ p.2, ((p.1 ^^^ 0xFF) &&& p.2) <<< 1)

/-- `while b != 0` with at most `n` passes; the answer is the pair then standing. -/
def carryLoop (pass : Byte × Byte → Byte × Byte) : Nat → Byte × Byte → Byte × Byte
  | 0, p => p
  | n + 1, p => if p.2 = 0 then p else carryLoop pass n (pass p)

/-- `Add8` by carry propagation (R71): "the loop runs at most 8 times". -/
def add8 (a b : Byte) : Byte := (carryLoop addPass 8 (a, b)).1

/-- `Sub8` by borrow propagation (R72): "it runs at most 8 times". -/
def sub8 (a b : Byte) : Byte := (carryLoop subPass 8 (a, b)).1

/-- `Mul8`'s loop from bit `i` on, for the `n` bits that are left (R73; D23). -/
def mulLoop (a b : Byte) : Nat → Nat → Byte → Byte
  | 0, _, acc => acc
  | n + 1, i, acc => mulLoop a b n (i + 1) (if b.getLsbD i then add8 acc (a <<< i) else acc)

/-- `Mul8` by shift-and-add (R73): `a` the multiplicand, `b` the multiplier. -/
def mul8 (a b : Byte) : Byte := mulLoop a b 8 0 0

/-- The unsigned floor quotient (R77; D13: log entry 12). -/
def div8 (a b : Byte) : Byte := a.udiv b

/-- The unsigned remainder (R78; D13: log entry 12). -/
def mod8 (a b : Byte) : Byte := a.umod b

/-- The logical left shift by the whole byte `n` (R83; D14: log entry 13). -/
def shl8 (a n : Byte) : Byte := if 8 ≤ n.toNat then 0 else a <<< n.toNat

/-- The logical right shift by the whole byte `n` (R84; D14: log entry 13). -/
def shr8 (a n : Byte) : Byte := if 8 ≤ n.toNat then 0 else a >>> n.toNat

/-! ## The instructions -/

/-- ADD (R74). -/
def execAdd (a b : Byte) (s : State) : Answer := binaryAlu add8 a b s

/-- SUB (R75); subtracting zero is no error (C4). -/
def execSub (a b : Byte) (s : State) : Answer := binaryAlu sub8 a b s

/-- MUL (R76). -/
def execMul (a b : Byte) (s : State) : Answer := binaryAlu mul8 a b s

/-- DIV (R77). -/
def execDiv (a b : Byte) (s : State) : Answer := divideAlu .divisionByZero div8 a b s

/-- MOD (R78). -/
def execMod (a b : Byte) (s : State) : Answer := divideAlu .moduloByZero mod8 a b s

/-- AND (R79). -/
def execAnd (a b : Byte) (s : State) : Answer := binaryAlu (fun va vb => va &&& vb) a b s

/-- OR (R80). -/
def execOr (a b : Byte) (s : State) : Answer := binaryAlu (fun va vb => va ||| vb) a b s

/-- XOR (R81). -/
def execXor (a b : Byte) (s : State) : Answer := binaryAlu (fun va vb => va ^^^ vb) a b s

/-- NOT (R82), masked to 8 bits (C3, D11: log entry 10). -/
def execNot (a : Byte) (s : State) : Answer := unaryAlu (fun va => va ^^^ 0xFF) a s

/-- SHL (R83). -/
def execShl (a b : Byte) (s : State) : Answer := binaryAlu shl8 a b s

/-- SHR (R84). -/
def execShr (a b : Byte) (s : State) : Answer := binaryAlu shr8 a b s

/-- INC (R85). -/
def execInc (a : Byte) (s : State) : Answer := unaryAlu (fun va => va + 1) a s

/-- DEC (R86). -/
def execDec (a : Byte) (s : State) : Answer := unaryAlu (fun va => va - 1) a s

/-- CMP (R87): only `fl` is written. -/
def execCmp (a b : Byte) (s : State) : Answer :=
  withRegs a b s fun ra rb => .next (State.advance { s with fl := compareFlags (s.reg ra) (s.reg rb) } 3)

end Sys2Proof.Machine
end

