-- ==== Sys2Proof/Machine/Control.lean ====
section
/-! DEFINITION. HLT and the jumps (42_control_dispatch.md). -/

namespace Sys2Proof.Machine

/-- HLT (R117): the mode becomes Halted and `pc` advances (D19: log entry 18). -/
def execHlt (s : State) : Answer := .next (State.advance { s with mode := .halted } 1)

/-- JMP (R118). -/
def execJmp (a : Byte) (s : State) : Answer := withReg a s fun ra => .next (s.jumpTo (s.reg ra))

/-- JEQ (R119). -/
def execJeq (a : Byte) (s : State) : Answer := condJump condEq a s

/-- JNE (R120). -/
def execJne (a : Byte) (s : State) : Answer := condJump condNe a s

/-- JLT (R121). -/
def execJlt (a : Byte) (s : State) : Answer := condJump condLt a s

/-- JLE (R122). -/
def execJle (a : Byte) (s : State) : Answer := condJump condLe a s

/-- JGT (R123). -/
def execJgt (a : Byte) (s : State) : Answer := condJump condGt a s

/-- JGE (R124). -/
def execJge (a : Byte) (s : State) : Answer := condJump condGe a s

end Sys2Proof.Machine
end

