-- ==== Sys2Proof/Machine/Data.lean ====
section
/-! DEFINITION. The immediate load and the output instructions LDI PRN PRA (43_data_io.md). -/

namespace Sys2Proof.Machine

/-- LDI (R130): the immediate as it stands, never checked. -/
def execLdi (a imm : Byte) (s : State) : Answer := withReg a s fun ra => .next ((s.setReg ra imm).advance 3)

/-- PRN (R131): appends `Num(x[a])` (D18: log entry 17). -/
def execPrn (a : Byte) (s : State) : Answer := printReg .num a s

/-- PRA (R132): appends `Chr(x[a])` (D18, G2: log entry 17). -/
def execPra (a : Byte) (s : State) : Answer := printReg .chr a s

end Sys2Proof.Machine
end

