-- ==== Sys2Proof/Machine/Stack.lean ====
section
/-! DEFINITION. The stack and subroutine instructions PUSH POP CALL RET (41_stack_call.md). -/

namespace Sys2Proof.Machine

/-- PUSH (R100). -/
def execPush (a : Byte) (s : State) : Answer :=
  withReg a s fun ra => pushByte (s.reg ra) s fun t => .next (t.advance 2)

/-- POP (R101). -/
def execPop (a : Byte) (s : State) : Answer :=
  withReg a s fun ra => popByte s fun v t => .next ((t.setReg ra v).advance 2)

/-- The return address CALL pushes, `pc + 2`; the check that came before makes it fit a byte (R102). -/
def returnAddress (s : State) : Byte := (s.pc + 2).setWidth 8

/-- CALL (R102): the target is read before the push; no auto-advance. -/
def execCall (a : Byte) (s : State) : Answer :=
  withReg a s fun ra => pushByte (returnAddress s) s fun t => .next (t.jumpTo (s.reg ra))

/-- RET (R103): no auto-advance. -/
def execRet (s : State) : Answer := popByte s fun target t => .next (t.jumpTo target)

end Sys2Proof.Machine
end

