-- ==== Sys2Proof/Syntax.lean ====
section
/-! DEFINITION. The instructions of the CORE: one constructor per row of spec/opcode_table.json (R56). -/

namespace Sys2Proof

/-- An instruction with its operand bytes as they stand in memory. `a` and `b` are register operand
bytes: a byte above 7 there "is not a different instruction; it is the fatal error of rule R54" (R59),
so they are kept whole and checked when the instruction executes (R111). -/
inductive Instr where
  /-- HLT (R117). -/
  | hlt
  /-- RET (R103). -/
  | ret
  /-- PUSH a (R100). -/
  | push (a : Byte)
  /-- POP a (R101). -/
  | pop (a : Byte)
  /-- PRN a (R131). -/
  | prn (a : Byte)
  /-- PRA a (R132). -/
  | pra (a : Byte)
  /-- CALL a (R102). -/
  | call (a : Byte)
  /-- JMP a (R118). -/
  | jmp (a : Byte)
  /-- JEQ a (R119). -/
  | jeq (a : Byte)
  /-- JNE a (R120). -/
  | jne (a : Byte)
  /-- JGT a (R123). -/
  | jgt (a : Byte)
  /-- JLT a (R121). -/
  | jlt (a : Byte)
  /-- JLE a (R122). -/
  | jle (a : Byte)
  /-- JGE a (R124). -/
  | jge (a : Byte)
  /-- INC a (R85). -/
  | inc (a : Byte)
  /-- DEC a (R86). -/
  | dec (a : Byte)
  /-- NOT a (R82). -/
  | not (a : Byte)
  /-- LDI a, imm (R130). -/
  | ldi (a imm : Byte)
  /-- ADD a, b (R74). -/
  | add (a b : Byte)
  /-- SUB a, b (R75). -/
  | sub (a b : Byte)
  /-- MUL a, b (R76). -/
  | mul (a b : Byte)
  /-- DIV a, b (R77). -/
  | div (a b : Byte)
  /-- MOD a, b (R78). -/
  | mod (a b : Byte)
  /-- CMP a, b (R87). -/
  | cmp (a b : Byte)
  /-- AND a, b (R79). -/
  | and (a b : Byte)
  /-- OR a, b (R80). -/
  | or (a b : Byte)
  /-- XOR a, b (R81). -/
  | xor (a b : Byte)
  /-- SHL a, b (R83). -/
  | shl (a b : Byte)
  /-- SHR a, b (R84). -/
  | shr (a b : Byte)
  deriving DecidableEq, Repr

/-- The register operand bytes of an instruction, in operand order (R53, R111): LDI's immediate is none. -/
def Instr.registerOperands : Instr → List Byte
  | .hlt | .ret => []
  | .push a | .pop a | .prn a | .pra a | .call a | .jmp a | .jeq a | .jne a | .jgt a | .jlt a | .jle a
  | .jge a | .inc a | .dec a | .not a | .ldi a _ => [a]
  | .add a b | .sub a b | .mul a b | .div a b | .mod a b | .cmp a b | .and a b | .or a b | .xor a b
  | .shl a b | .shr a b => [a, b]

end Sys2Proof
end

