-- ==== Sys2Proof/WellFormed.lean ====
section
/-! DEFINITION. When an instruction's operand bytes are the ones R53 calls legal. -/

namespace Sys2Proof

/-- "register index, legal values 0..7" (R53, R54). -/
def legalRegister (b : Byte) : Bool := decide (b.toNat ≤ 7)

/-- Every register operand is legal. An immediate may be any byte (R53, R55). -/
def Instr.wellFormed (i : Instr) : Bool := i.registerOperands.all legalRegister

end Sys2Proof
end

