-- ==== Sys2Proof/Decode.lean ====
section
/-! DEFINITION. The opcode map, the decoder and the encoder (30_encoding.md). -/

namespace Sys2Proof

/-- The 29 operation identities of R56, in the order of its table. -/
inductive Op where
  | hlt | ret | push | pop | prn | pra | call | jmp | jeq | jne | jgt | jlt | jle | jge | inc | dec | not
  | ldi | add | sub | mul | div | mod | cmp | and | or | xor | shl | shr
  deriving DecidableEq, Repr

/-- All rows of R56. -/
def Op.all : List Op :=
  [.hlt, .ret, .push, .pop, .prn, .pra, .call, .jmp, .jeq, .jne, .jgt, .jlt, .jle, .jge, .inc, .dec, .not]
    ++ [.ldi, .add, .sub, .mul, .div, .mod, .cmp, .and, .or, .xor, .shl, .shr]

/-- `OPCODE_MAP`, the one table of opcode byte values (R56). The source gives none: the spec takes these
from general knowledge (D1, G1). UNVERIFIED: log entry 1, unsafe. -/
def Op.byte : Op → Byte
  | .hlt => 0x01
  | .ret => 0x11
  | .push => 0x45
  | .pop => 0x46
  | .prn => 0x47
  | .pra => 0x48
  | .call => 0x50
  | .jmp => 0x54
  | .jeq => 0x55
  | .jne => 0x56
  | .jgt => 0x57
  | .jlt => 0x58
  | .jle => 0x59
  | .jge => 0x5A
  | .inc => 0x65
  | .dec => 0x66
  | .not => 0x69
  | .ldi => 0x82
  | .add => 0xA0
  | .sub => 0xA1
  | .mul => 0xA2
  | .div => 0xA3
  | .mod => 0xA4
  | .cmp => 0xA7
  | .and => 0xA8
  | .or => 0xAA
  | .xor => 0xAB
  | .shl => 0xAC
  | .shr => 0xAD

/-- The Dispatcher's lookup of the WHOLE opcode byte; no entry is the unrecognised opcode (R56, R58, R114). -/
def Op.ofByte (b : Byte) : Option Op := Op.all.find? fun o => o.byte == b

/-- `N`, bits 7:6 of the opcode byte: how many operand bytes follow (R51, R52). -/
def operandCount (opcode : Byte) : Nat := (opcode.extractLsb' 6 2).toNat

/-- The instruction an operation makes of its operand bytes `byte1` and `byte2` (R53); a format with
fewer operands ignores the rest. -/
def Op.build (o : Op) (byte1 byte2 : Byte) : Instr :=
  match o with
  | .hlt => .hlt
  | .ret => .ret
  | .push => .push byte1
  | .pop => .pop byte1
  | .prn => .prn byte1
  | .pra => .pra byte1
  | .call => .call byte1
  | .jmp => .jmp byte1
  | .jeq => .jeq byte1
  | .jne => .jne byte1
  | .jgt => .jgt byte1
  | .jlt => .jlt byte1
  | .jle => .jle byte1
  | .jge => .jge byte1
  | .inc => .inc byte1
  | .dec => .dec byte1
  | .not => .not byte1
  | .ldi => .ldi byte1 byte2
  | .add => .add byte1 byte2
  | .sub => .sub byte1 byte2
  | .mul => .mul byte1 byte2
  | .div => .div byte1 byte2
  | .mod => .mod byte1 byte2
  | .cmp => .cmp byte1 byte2
  | .and => .and byte1 byte2
  | .or => .or byte1 byte2
  | .xor => .xor byte1 byte2
  | .shl => .shl byte1 byte2
  | .shr => .shr byte1 byte2

/-- An operation applied to its list of operand bytes. -/
def Op.buildFrom (o : Op) (operands : List Byte) : Instr := o.build (operands.getD 0 0) (operands.getD 1 0)

/-- Why a sequence of bytes is no instruction. -/
inductive DecodeError where
  /-- There is no opcode byte. -/
  | noOpcode
  /-- The opcode byte is none of the 29 (R58). -/
  | unknownOpcode (opcode : Byte)
  /-- The opcode is recognised and its `k`-th operand byte (1 the first) is not there. -/
  | missingOperand (k : Nat)
  deriving DecidableEq, Repr

/-- Take `n` operand bytes, the next being the `k`-th; give them and the bytes after them (R50, R53). -/
def takeOperands : Nat → Nat → List Byte → Except DecodeError (List Byte × List Byte)
  | 0, _, rest => .ok ([], rest)
  | _ + 1, k, [] => .error (.missingOperand k)
  | n + 1, k, b :: rest =>
    match takeOperands n (k + 1) rest with
    | .ok (bs, rest') => .ok (b :: bs, rest')
    | .error e => .error e

/-- The decoder: lookup of the opcode byte, then as many operand bytes as its top two bits say (R51,
R56); it answers the instruction and the bytes that follow it. A register operand above 7 decodes (R59). -/
def decode : List Byte → Except DecodeError (Instr × List Byte)
  | [] => .error .noOpcode
  | opcode :: rest =>
    match Op.ofByte opcode with
    | none => .error (.unknownOpcode opcode)
    | some o =>
      match takeOperands (operandCount opcode) 1 rest with
      | .ok (bs, rest') => .ok (o.buildFrom bs, rest')
      | .error e => .error e

/-- Byte `k` of an instruction whose bits are `w`, byte 0 the least significant; bits from `nbits` up are 0. -/
def tableByte (nbits w k : Nat) : Byte := BitVec.ofNat 8 ((w % 2 ^ nbits) >>> (8 * k))

/-- The bytes of a table word up to the longest instruction, three bytes, lowest address first (R50). -/
def tableBytes (nbits w : Nat) : List Byte := [tableByte nbits w 0, tableByte nbits w 1, tableByte nbits w 2]

/-- The instruction the decoder reads from a table word (byte 0 in bits 7..0). -/
def decodeTableWord (nbits w : Nat) : Option Instr :=
  match decode (tableBytes nbits w) with
  | .ok (i, _) => some i
  | .error _ => none

/-- The operation of an instruction. -/
def Instr.op : Instr → Op
  | .hlt => .hlt
  | .ret => .ret
  | .push _ => .push
  | .pop _ => .pop
  | .prn _ => .prn
  | .pra _ => .pra
  | .call _ => .call
  | .jmp _ => .jmp
  | .jeq _ => .jeq
  | .jne _ => .jne
  | .jgt _ => .jgt
  | .jlt _ => .jlt
  | .jle _ => .jle
  | .jge _ => .jge
  | .inc _ => .inc
  | .dec _ => .dec
  | .not _ => .not
  | .ldi _ _ => .ldi
  | .add _ _ => .add
  | .sub _ _ => .sub
  | .mul _ _ => .mul
  | .div _ _ => .div
  | .mod _ _ => .mod
  | .cmp _ _ => .cmp
  | .and _ _ => .and
  | .or _ _ => .or
  | .xor _ _ => .xor
  | .shl _ _ => .shl
  | .shr _ _ => .shr

/-- The operand bytes of an instruction: its register operands, and LDI's immediate after its register (R53). -/
def Instr.operandBytes (i : Instr) : List Byte :=
  match i with
  | .ldi a imm => [a, imm]
  | _ => i.registerOperands

/-- The encoder: the opcode byte, then the operand bytes in ascending order (R50, R53). -/
def encode (i : Instr) : List Byte := i.op.byte :: i.operandBytes

end Sys2Proof
end

