-- ==== Sys2Proof/Machine/Fetch.lean ====
section
/-! DEFINITION. Fetching an instruction: steps 1 to 3 of the execution cycle (R110), and placing one where it is fetched. -/

namespace Sys2Proof.Machine

/-- Read `n` operand bytes from `addr` upward, lower address first (R40, R110). -/
def fetchOperands : Nat → Nat → State → (List Byte → Answer) → Answer
  | 0, _, _, k => k []
  | n + 1, addr, s, k => memRead addr s fun b => fetchOperands n (addr + 1) s fun bs => k (b :: bs)

/-- Steps 1 to 3 of R110: the opcode at `pc`, its recognition, then the operand bytes its top two bits
announce (D7, D22: log entry 20). Addresses are ints: they do not wrap (R19). -/
def fetch (s : State) (k : Instr → Answer) : Answer :=
  memRead s.pc.toNat s fun opcode =>
    match Op.ofByte opcode with
    | none => raise .unknownOpcode (.opcode opcode) s
    | some o => fetchOperands (operandCount opcode) (s.pc.toNat + 1) s fun bs => k (o.buildFrom bs)

/-- Put bytes into the cells from `addr` upward; a byte beyond the last cell has no place. -/
def placeBytes : List Byte → Nat → Memory → Memory
  | [], _, m => m
  | b :: bs, addr, m => placeBytes bs (addr + 1) (if addr < Config.memSize then m.store addr b else m)

end Sys2Proof.Machine
end

