-- ==== Sys2Proof/Machine/Step.lean ====
section
/-! DEFINITION. One step of the machine (R110), and an instruction placed where the next step fetches it. -/

namespace Sys2Proof.Machine

/-- One step (R110): "defined only when `mode = Running`"; in the other modes it stops under a name (log entry 24). -/
def step (s : State) : Host.Outcome State Fault Refusal :=
  match s.mode with
  | .idle => .refused .notStarted
  | .running => fetch s fun i => exec i s
  | .halted => .fault .halted
  | .faulted => .fault .faulted

/-- `s` with a table word's bytes in the cells from `pc` on and the machine Running, so that the next
step fetches and runs them: it stands for the host's `load_program` and `run` (R160; log entry 25). -/
def State.withFetchWord (s : State) (nbits w : Nat) : State :=
  { s with mem := placeBytes (tableBytes nbits w) s.pc.toNat s.mem, mode := .running }

end Sys2Proof.Machine
end

