-- ==== Sys2Proof/Machine/Assembly.lean ====
section
/-! DEFINITION. The written form of instructions (R60): a notation of the spec, not behaviour (D27). -/

namespace Sys2Proof.Machine

/-- The mnemonic of an operation (R56, R60). -/
def mnemonicOf : Op → String
  | .hlt => "HLT"
  | .ret => "RET"
  | .push => "PUSH"
  | .pop => "POP"
  | .prn => "PRN"
  | .pra => "PRA"
  | .call => "CALL"
  | .jmp => "JMP"
  | .jeq => "JEQ"
  | .jne => "JNE"
  | .jgt => "JGT"
  | .jlt => "JLT"
  | .jle => "JLE"
  | .jge => "JGE"
  | .inc => "INC"
  | .dec => "DEC"
  | .not => "NOT"
  | .ldi => "LDI"
  | .add => "ADD"
  | .sub => "SUB"
  | .mul => "MUL"
  | .div => "DIV"
  | .mod => "MOD"
  | .cmp => "CMP"
  | .and => "AND"
  | .or => "OR"
  | .xor => "XOR"
  | .shl => "SHL"
  | .shr => "SHR"

/-- The operation a written mnemonic names; `HALT` is a second spelling of `HLT` (R60, C8). -/
def operationNamed (word : String) : Option Op :=
  if word = "HALT" then some .hlt else Op.all.find? fun o => mnemonicOf o == word

/-- A register as it is written: `R` and its decimal index (R60). -/
def writtenRegister (b : Byte) : String := "R" ++ toString b.toNat

/-- An instruction as it is written, an immediate in decimal (R60). -/
def written (i : Instr) : String :=
  match i with
  | .ldi a imm => mnemonicOf i.op ++ " " ++ writtenRegister a ++ "," ++ toString imm.toNat
  | _ =>
    match i.registerOperands with
    | [] => mnemonicOf i.op
    | rs => mnemonicOf i.op ++ " " ++ String.intercalate "," (rs.map writtenRegister)

end Sys2Proof.Machine
end

