-- ==== Sys2Proof/Machine/Entry.lean ====
section
/-! DEFINITION. The host's entry points that act between steps: load_program, run's start, read_register, peek_memory (R152 to R154). -/

namespace Sys2Proof.Machine

/-- Write bytes into the cells from `i` upward, in order; the first that has no cell raises (R152). -/
def loadFrom : List Byte → Nat → State → Answer
  | [], _, s => .next s
  | b :: bs, i, s => memWrite i b s fun t => loadFrom bs (i + 1) t

/-- `load_program(bytes)` (R152): only in Idle; otherwise refused with no effect (D20: log entry 19). -/
def loadProgram (bytes : List Byte) (s : State) : Answer :=
  if s.mode = .idle then loadFrom bytes 0 s else .refused .callNotAllowed

/-- The start of `run()` (R113, R153): only in Idle; otherwise refused with no effect (D20: log entry 19). -/
def startRun (s : State) : Answer :=
  if s.mode = .idle then .next { s with mode := .running } else .refused .callNotAllowed

/-- `read_register(index)` (R154): any mode but Running; it changes nothing. -/
def readRegister (index : Nat) (s : State) : Except Refusal Byte :=
  if s.mode = .running then .error .callNotAllowed
  else if h : index < 8 then .ok (s.reg ⟨index, h⟩) else .error .noSuchRegister

/-- `peek_memory(address)` (R154): any mode but Running; a plain read that raises nothing. -/
def peekMemory (address : Nat) (s : State) : Except Refusal Byte :=
  if s.mode = .running then .error .callNotAllowed
  else if address < Config.memSize then .ok (s.mem.load address) else .error .noSuchCell

end Sys2Proof.Machine
end

