-- ==== Sys2Proof/Machine/Run.lean ====
section
/-! DEFINITION. The host's run(): steps until Halted or Faulted, under fuel, and how it returns (R113, R115, R153). -/

namespace Sys2Proof.Machine

/-- How `run()` returns to the host (R153). -/
inductive RunReturn where
  /-- The machine Halted. -/
  | normal
  /-- The machine Faulted: the record, and an exit status of which only "non-zero" is known (R141). -/
  | error (record : FaultRecord) (exitStatus : Nat)
  deriving DecidableEq, Repr

/-- The exit status of a faulted run: some non-zero number (R141, R153; U17: log entry 27). -/
def exitStatus (record : FaultRecord) : Nat := Config.faultExitStatusExcess record.kind.ordinal + 1

/-- How a run that ended in `s` returns; `none` while there is nothing to return (R115, R155). -/
def State.runReturn (s : State) : Option RunReturn :=
  match s.mode, s.fault with
  | .halted, _ => some .normal
  | .faulted, some record => some (.error record (exitStatus record))
  | .faulted, none => none
  | .idle, _ => none
  | .running, _ => none

/-- Steps for as long as `mode = Running`, at most `fuel` of them. `none`: still Running, which is not a
final state (U12: log entry 28). -/
def runSteps : Nat → State → Option State
  | 0, s => if s.mode = .running then none else some s
  | fuel + 1, s =>
    if s.mode = .running then
      match step s with
      | .next t => runSteps fuel t
      | .fault _ => none
      | .refused _ => none
    else some s

/-- `run()` (R113, R153) under fuel: refused unless Idle; else the state in which the run ended. -/
def run (fuel : Nat) (s : State) : Except Refusal (Option State) :=
  match startRun s with
  | .next t => .ok (runSteps fuel t)
  | .fault _ => .error .callNotAllowed
  | .refused r => .error r

end Sys2Proof.Machine
end

