-- ==== Sys2Proof/Safety.lean ====
section
/-! DEFINITION. What every reachable state satisfies, and what a claim calls a fatal step, in the terms claims use. -/

namespace Sys2Proof

open Machine

/-- A fault record of the shape R142 gives its kind. -/
def FaultRecordFits (r : FaultRecord) : Prop :=
  match r.kind, r.info with
  | .unknownOpcode, .opcode b => Op.ofByte b = none
  | .outOfBoundsAccess, .address a => Config.memSize ≤ a
  | .invalidRegister, .index b => 7 < b.toNat
  | .stackOverflow, .none => True
  | .stackUnderflow, .none => True
  | .divisionByZero, .none => True
  | .moduloByZero, .none => True
  | _, _ => False

/-- The invariant of the machine: memory in canonical form, `2 <= sp <= 0xF4` (R14), `fl` one of its
four values (R15), `pc` in 0..256 (R19), a fault record exactly when Faulted (R20, R21) which carries
`pc` and fits its kind (R141, R142), and `pc = 0` before the run (R24, R152). -/
structure Inv (s : State) : Prop where
  memory : s.mem.wf = true
  spLow : 2 ≤ s.sp.toNat
  spHigh : s.sp.toNat ≤ 0xF4
  flags : s.fl = 0x00 ∨ s.fl = 0x01 ∨ s.fl = 0x02 ∨ s.fl = 0x04
  pcRange : s.pc.toNat ≤ 256
  faulted : s.mode = .faulted ↔ s.fault ≠ none
  record : ∀ r, s.fault = some r → r.pc = s.pc ∧ FaultRecordFits r
  idlePc : s.mode = .idle → s.pc = 0

end Sys2Proof
end

