-- ==== Sys2Proof/Certificates/Slice0/Obligations.lean ====
section
/-! DEFINITION. The statements for the provers, and the words they are written in. -/

namespace Sys2Proof.Claims

open Machine

/-! ## Words of the statements -/

/-- The operand byte that names register `i`; every byte 0..7 is one. -/
def regByte (i : Fin 8) : Byte := BitVec.ofNat 8 i.val

/-- The state R141 describes after `raise kind(info)`: the record and the mode, and nothing else. -/
def afterRaise (s : State) (kind : FatalKind) (info : FaultInfo) : State :=
  { s with fault := some ⟨kind, s.pc, info⟩, mode := .faulted }

/-- A one-register instruction with an operand byte above 7 raises InvalidRegister (R54, R111). -/
def RefusesBadRegister (i : Byte → Instr) : Prop :=
  ∀ (a : Byte) (s : State), 7 < a.toNat → exec (i a) s = .next (afterRaise s .invalidRegister (.index a))

/-- A two-register instruction raises InvalidRegister for its first operand byte above 7, else for its second. -/
def RefusesBadRegisters (i : Byte → Byte → Instr) : Prop :=
  (∀ (a b : Byte) (s : State), 7 < a.toNat → exec (i a b) s = .next (afterRaise s .invalidRegister (.index a))) ∧
  (∀ (a : Fin 8) (b : Byte) (s : State), 7 < b.toNat →
    exec (i (regByte a) b) s = .next (afterRaise s .invalidRegister (.index b)))

/-- `x[a] <- f(x[a])`, `pc <- pc + 2`, everything else as it was. -/
def ReplacesRegister (i : Byte → Instr) (f : Byte → Byte) : Prop :=
  ∀ (a : Fin 8) (s : State),
    exec (i (regByte a)) s = .next { s with x := s.x.set a.val (f s.x[a]), pc := s.pc + 2 }

/-- `x[a] <- f(x[a], x[b])`, `pc <- pc + 3`, everything else as it was; `a` and `b` may be the same register. -/
def ReplacesFirstRegister (i : Byte → Byte → Instr) (f : Byte → Byte → Byte) : Prop :=
  ∀ (a b : Fin 8) (s : State),
    exec (i (regByte a) (regByte b)) s = .next { s with x := s.x.set a.val (f s.x[a] s.x[b]), pc := s.pc + 3 }

/-- A division form: the quotient-like `f` of the two values as numbers when the divisor register does
not hold 0, and the fatal `kind`, with nothing written, when it does. -/
def DividesOrRaises (i : Byte → Byte → Instr) (kind : FatalKind) (f : Nat → Nat → Nat) : Prop :=
  (∀ (a b : Fin 8) (s : State), s.x[b] ≠ 0 →
    exec (i (regByte a) (regByte b)) s =
      .next { s with x := s.x.set a.val (BitVec.ofNat 8 (f s.x[a].toNat s.x[b].toNat)), pc := s.pc + 3 }) ∧
  (∀ (a b : Fin 8) (s : State), s.x[b] = 0 →
    exec (i (regByte a) (regByte b)) s = .next (afterRaise s kind .none))

/-- A conditional jump: to `x[a]` when the condition holds of `fl`, else on by two bytes; nothing else changes. -/
def JumpsWhen (i : Byte → Instr) (cond : Byte → Prop) : Prop :=
  (∀ (a : Fin 8) (s : State), cond s.fl →
    exec (i (regByte a)) s = .next { s with pc := s.x[a].setWidth 9 }) ∧
  (∀ (a : Fin 8) (s : State), ¬ cond s.fl →
    exec (i (regByte a)) s = .next { s with pc := s.pc + 2 })

/-- The bit numbers of R15. -/
def bitE (fl : Byte) : Prop := fl.getLsbD 0 = true
/-- Bit 1 (R15). -/
def bitL (fl : Byte) : Prop := fl.getLsbD 1 = true
/-- Bit 2 (R15). -/
def bitG (fl : Byte) : Prop := fl.getLsbD 2 = true

/-- The check PUSH and CALL make, `sp - 1 <= pc + 1` in int arithmetic (R100). -/
def Overflows (s : State) : Prop := (s.sp.toNat : Int) - 1 ≤ (s.pc.toNat : Int) + 1

/-- The bytes at `pc` decode to `i`: the instruction the step at `s` fetches. -/
def RunsAt (s : State) (i : Instr) : Prop := ∃ rest, decode (s.mem.bytesFrom s.pc.toNat) = .ok (i, rest)

/-- The 29 rows of R56, written out: the opcode byte and the mnemonic of the table, and the operation they name. -/
def opcodeRows : List (Byte × String × Op) :=
  [(0x01, "HLT", .hlt), (0x11, "RET", .ret), (0x45, "PUSH", .push), (0x46, "POP", .pop), (0x47, "PRN", .prn),
    (0x48, "PRA", .pra), (0x50, "CALL", .call), (0x54, "JMP", .jmp), (0x55, "JEQ", .jeq), (0x56, "JNE", .jne),
    (0x57, "JGT", .jgt), (0x58, "JLT", .jlt), (0x59, "JLE", .jle), (0x5A, "JGE", .jge)] ++
  [(0x65, "INC", .inc), (0x66, "DEC", .dec), (0x69, "NOT", .not), (0x82, "LDI", .ldi), (0xA0, "ADD", .add),
    (0xA1, "SUB", .sub), (0xA2, "MUL", .mul), (0xA3, "DIV", .div), (0xA4, "MOD", .mod), (0xA7, "CMP", .cmp),
    (0xA8, "AND", .and), (0xAA, "OR", .or), (0xAB, "XOR", .xor), (0xAC, "SHL", .shl), (0xAD, "SHR", .shr)]

/-- The 29 opcode bytes of R56. -/
def knownOpcodes : List Byte := opcodeRows.map fun row => row.1

/-- The bytes of every instruction, written out from R53 and R56: the opcode byte, then the operand bytes. -/
def wordOf : Instr → List Byte
  | .hlt => [0x01]
  | .ret => [0x11]
  | .push a => [0x45, a]
  | .pop a => [0x46, a]
  | .prn a => [0x47, a]
  | .pra a => [0x48, a]
  | .call a => [0x50, a]
  | .jmp a => [0x54, a]
  | .jeq a => [0x55, a]
  | .jne a => [0x56, a]
  | .jgt a => [0x57, a]
  | .jlt a => [0x58, a]
  | .jle a => [0x59, a]
  | .jge a => [0x5A, a]
  | .inc a => [0x65, a]
  | .dec a => [0x66, a]
  | .not a => [0x69, a]
  | .ldi a imm => [0x82, a, imm]
  | .add a b => [0xA0, a, b]
  | .sub a b => [0xA1, a, b]
  | .mul a b => [0xA2, a, b]
  | .div a b => [0xA3, a, b]
  | .mod a b => [0xA4, a, b]
  | .cmp a b => [0xA7, a, b]
  | .and a b => [0xA8, a, b]
  | .or a b => [0xAA, a, b]
  | .xor a b => [0xAB, a, b]
  | .shl a b => [0xAC, a, b]
  | .shr a b => [0xAD, a, b]

/-- A function of the state, under the next-state outcome. -/
def mapNext (g : State → State) : Answer → Answer
  | .next t => .next (g t)
  | .fault r => .fault r
  | .refused r => .refused r

/-- The value of the register a byte names (0 for a byte that names none). -/
def regAt (s : State) (b : Byte) : Byte := if h : b.toNat < 8 then s.x[b.toNat] else 0

/-- CMP, which writes `fl`, and the conditional jumps, which read it (R16). -/
def usesFlags : Instr → Bool
  | .cmp _ _ | .jeq _ | .jne _ | .jlt _ | .jle _ | .jgt _ | .jge _ => true
  | _ => false

/-- The instructions that read and write `sp` (R13). -/
def usesStack : Instr → Bool
  | .push _ | .pop _ | .call _ | .ret => true
  | _ => false

/-- The operand byte of the register an instruction writes, if it writes one (R57). -/
def destination : Instr → Option Byte
  | .add a _ | .sub a _ | .mul a _ | .div a _ | .mod a _ | .and a _ | .or a _ | .xor a _ | .shl a _ | .shr a _ => some a
  | .not a | .inc a | .dec a | .ldi a _ | .pop a => some a
  | .cmp _ _ | .push _ | .call _ | .ret | .hlt | .jmp _ | .jeq _ | .jne _ | .jlt _ | .jle _ | .jgt _ | .jge _
  | .prn _ | .pra _ => none

/-- The pc after an instruction that raises no fatal error (R18, R112). -/
def nextPc (i : Instr) (s : State) : PcWord :=
  match i with
  | .jmp a | .call a => (regAt s a).setWidth 9
  | .ret => (s.mem.load s.sp.toNat).setWidth 9
  | .jeq a => if s.fl.getLsbD 0 then (regAt s a).setWidth 9 else s.pc + 2
  | .jne a => if s.fl.getLsbD 0 then s.pc + 2 else (regAt s a).setWidth 9
  | .jlt a => if s.fl.getLsbD 1 then (regAt s a).setWidth 9 else s.pc + 2
  | .jle a => if s.fl.getLsbD 1 || s.fl.getLsbD 0 then (regAt s a).setWidth 9 else s.pc + 2
  | .jgt a => if s.fl.getLsbD 2 then (regAt s a).setWidth 9 else s.pc + 2
  | .jge a => if s.fl.getLsbD 2 || s.fl.getLsbD 0 then (regAt s a).setWidth 9 else s.pc + 2
  | .hlt => s.pc + 1
  | .not _ | .inc _ | .dec _ | .push _ | .pop _ | .prn _ | .pra _ => s.pc + 2
  | .add _ _ | .sub _ _ | .mul _ _ | .div _ _ | .mod _ _ | .and _ _ | .or _ _ | .xor _ _ | .shl _ _ | .shr _ _
  | .cmp _ _ | .ldi _ _ => s.pc + 3

/-- The transfers that are taken: JMP, CALL and RET always, a conditional jump when its condition holds of `fl` (R112 a). -/
def redirects (fl : Byte) : Instr → Bool
  | .jmp _ | .call _ | .ret => true
  | .jeq _ => fl.getLsbD 0
  | .jne _ => !fl.getLsbD 0
  | .jlt _ => fl.getLsbD 1
  | .jle _ => fl.getLsbD 1 || fl.getLsbD 0
  | .jgt _ => fl.getLsbD 2
  | .jge _ => fl.getLsbD 2 || fl.getLsbD 0
  | .hlt | .push _ | .pop _ | .prn _ | .pra _ | .inc _ | .dec _ | .not _ | .ldi _ _ | .add _ _ | .sub _ _ | .mul _ _
  | .div _ _ | .mod _ _ | .cmp _ _ | .and _ _ | .or _ _ | .xor _ _ | .shl _ _ | .shr _ _ => false

/-- The cause R142 gives for each kind of fatal error in a step from `s`. -/
def CauseHolds (s : State) : FatalKind → FaultInfo → Prop
  | .unknownOpcode, .opcode b => s.pc.toNat < 256 ∧ s.mem.load s.pc.toNat = b ∧ b ∉ knownOpcodes
  | .outOfBoundsAccess, .address a =>
    256 ≤ a ∧ (a = s.pc.toNat ∨
      (s.mem.load s.pc.toNat ∈ knownOpcodes ∧ s.pc.toNat < a ∧
        a ≤ s.pc.toNat + (s.mem.load s.pc.toNat).toNat / 64))
  | .stackOverflow, .none => (∃ a : Fin 8, RunsAt s (.push (regByte a)) ∨ RunsAt s (.call (regByte a))) ∧ Overflows s
  | .stackUnderflow, .none => (RunsAt s .ret ∨ ∃ a : Fin 8, RunsAt s (.pop (regByte a))) ∧ s.sp = 0xF4
  | .divisionByZero, .none => ∃ a b : Fin 8, RunsAt s (.div (regByte a) (regByte b)) ∧ s.x[b] = 0
  | .moduloByZero, .none => ∃ a b : Fin 8, RunsAt s (.mod (regByte a) (regByte b)) ∧ s.x[b] = 0
  | .invalidRegister, .index b => 7 < b.toNat ∧ ∃ i, RunsAt s i ∧ b ∈ i.registerOperands
  | _, _ => False

end Sys2Proof.Claims

open Sys2Proof Sys2Proof.Machine Sys2Proof.Claims

/-! ## Encoding -/

/-- Decode and encode agree, both ways: bytes decode to `i` with `rest` left over exactly when they are `i`'s encoding
followed by `rest`. So every operand keeps every value the encoding admits, no bit of an encoding is dropped, and no other
bytes decode to `i` (R50, R52, R53, R55, R56). The byte values are the spec's own decision D1 (log entry 1). -/
def Obligations.DecodeAndEncodeAgree : Prop :=
  ∀ (bytes : List Byte) (i : Instr) (rest : List Byte), decode bytes = .ok (i, rest) ↔ bytes = encode i ++ rest

/-- Each of the 29 bytes of R56, written out, is recognised as its own operation, the other 227 have no entry, and the
bytes written out for every instruction decode to that instruction (R53, R56, R58, R114). The byte values are the spec's own
decision D1 (log entry 1), and which 29 instructions exist is decision D2 (log entry 2). -/
def Obligations.ExactlyTheListedOpcodesAreRecognised : Prop :=
  (∀ row ∈ opcodeRows, Op.ofByte row.1 = some row.2.2 ∧ row.2.2.byte = row.1) ∧
  (∀ b : Byte, (Op.ofByte b).isSome = true ↔ b ∈ knownOpcodes) ∧ knownOpcodes.length = 29 ∧ knownOpcodes.Nodup ∧
  (∀ (i : Instr) (rest : List Byte), encode i = wordOf i ∧ decode (wordOf i ++ rest) = .ok (i, rest))

/-- In every instruction's encoding the top two bits of the first byte (its value divided by 64) count
the operand bytes, they are never 3, and the length is that count plus one (R51). -/
def Obligations.TopTwoBitsGiveTheLength : Prop :=
  ∀ i : Instr, ∃ opcode operands, encode i = opcode :: operands ∧
    operands.length = opcode.toNat / 64 ∧ opcode.toNat / 64 ≠ 3 ∧ operandCount opcode = opcode.toNat / 64

/-- A few words written out bit by bit from R56 and R62 decode to the instructions they stand for. -/
def Obligations.WordsOfTheSpecDecode : Prop :=
  decode [0b10000010, 0b00000000, 0b00001000] = .ok (.ldi 0 8, []) ∧
  decode [0b01000111, 0b00000000] = .ok (.prn 0, []) ∧
  decode [0b00000001] = .ok (.hlt, []) ∧
  decode [0b10100011, 0b00000000, 0b00000001] = .ok (.div 0 1, []) ∧
  decode [0b01010000, 0b00000001] = .ok (.call 1, []) ∧
  decode [0b00000000] = .error (.unknownOpcode 0)

/-- Each of the 29 mnemonics of R56, written out, names its operation and is how that operation is written; no operation is
without one; and `HALT` is accepted for `HLT` (R56, R60). The written form is the spec's decision D27, and which 29
instructions exist is decision D2 (log entry 2). -/
def Obligations.MnemonicsNameTheirOperations : Prop :=
  (∀ row ∈ opcodeRows, operationNamed row.2.1 = some row.2.2 ∧ mnemonicOf row.2.2 = row.2.1) ∧
  (∀ o : Op, ∃ row ∈ opcodeRows, row.2.2 = o) ∧
  (∀ o : Op, operationNamed (mnemonicOf o) = some o) ∧ operationNamed "HALT" = some .hlt

/-! ## The step -/

/-- When the bytes at `pc` decode to an instruction, a step of the Running machine is that instruction's
execution, and nothing else around it (R110, R113). -/
def Obligations.StepRunsTheDecodedInstruction : Prop :=
  ∀ (s : State) (i : Instr) (rest : List Byte), s.mode = .running →
    decode (s.mem.bytesFrom s.pc.toNat) = .ok (i, rest) → step s = exec i s

/-- The fatal errors of fetching, in R110's order: the opcode fetch out of range; else an opcode byte that
is not one of the 29, whatever its top bits say; else the first operand byte that lies beyond cell 255.
The order and the extent of the fetch are the spec's decisions D6, D7, D22 (log entries 6, 20). -/
def Obligations.FetchErrorsInOrder : Prop :=
  (∀ s : State, s.mode = .running → 256 ≤ s.pc.toNat →
    step s = .next (afterRaise s .outOfBoundsAccess (.address s.pc.toNat))) ∧
  (∀ s : State, s.mode = .running → s.pc.toNat < 256 → s.mem.load s.pc.toNat ∉ knownOpcodes →
    step s = .next (afterRaise s .unknownOpcode (.opcode (s.mem.load s.pc.toNat)))) ∧
  (∀ s : State, s.mode = .running → s.pc.toNat = 255 → s.mem.load 255 ∈ knownOpcodes → 64 ≤ (s.mem.load 255).toNat →
    step s = .next (afterRaise s .outOfBoundsAccess (.address 256))) ∧
  (∀ s : State, s.mode = .running → s.pc.toNat = 254 → s.mem.load 254 ∈ knownOpcodes → 128 ≤ (s.mem.load 254).toNat →
    step s = .next (afterRaise s .outOfBoundsAccess (.address 256)))

/-- A step is defined only when Running (R110); what the model answers in the other modes, by name, is its own
choice (log entry 24). -/
def Obligations.NoStepOutsideRunning : Prop :=
  ∀ s : State, (s.mode = .idle → step s = .refused .notStarted) ∧ (s.mode = .halted → step s = .fault .halted) ∧
    (s.mode = .faulted → step s = .fault .faulted)

/-- Every step of a Running machine terminates in a next state: no instruction, byte or state makes the
model stop (R169, R140; log entry 23 says that a fatal error is a next state). -/
def Obligations.RunningMachineAlwaysSteps : Prop :=
  ∀ s : State, s.mode = .running → ∃ t, step s = .next t

/-! ## Memory -/

/-- `MemRead` out of range raises OutOfBoundsAccess with the address; in range it hands on the cell's byte
and changes nothing (R31). -/
def Obligations.MemReadFollowsItsRule : Prop :=
  ∀ (addr : Nat) (s : State) (k : Byte → Answer),
    (256 ≤ addr → memRead addr s k = .next (afterRaise s .outOfBoundsAccess (.address addr))) ∧
    (addr < 256 → memRead addr s k = k (s.mem.load addr))

/-- `MemWrite` out of range raises OutOfBoundsAccess with the address; in range exactly one cell changes, to
the value written (R32). -/
def Obligations.MemWriteChangesOneCell : Prop :=
  ∀ (addr : Nat) (v : Byte) (s : State) (k : State → Answer),
    (256 ≤ addr → memWrite addr v s k = .next (afterRaise s .outOfBoundsAccess (.address addr))) ∧
    (addr < 256 → ∃ m : Memory, memWrite addr v s k = k { s with mem := m } ∧
      ∀ b, m.load b = if b = addr then v else s.mem.load b)

/-! ## The ALU's algorithms -/

/-- The carry loop returns `(a + b) mod 256` for all operands (R71; the 8-bit carry is decision D12, log entry 11). -/
def Obligations.CarryLoopAddsModulo256 : Prop :=
  ∀ a b : Byte, (add8 a b).toNat = (a.toNat + b.toNat) % 256

/-- The borrow loop returns `(a - b) mod 256` for all operands (R72; the 8-bit borrow is decision D12, log entry 11). -/
def Obligations.BorrowLoopSubtractsModulo256 : Prop :=
  ∀ a b : Byte, ((sub8 a b).toNat : Int) = ((a.toNat : Int) - (b.toNat : Int)) % 256

/-- Shift-and-add returns `(a * b) mod 256` for all operands (R73). -/
def Obligations.ShiftAndAddMultipliesModulo256 : Prop :=
  ∀ a b : Byte, (mul8 a b).toNat = (a.toNat * b.toNat) % 256

/-- Eight passes of either loop always leave no carry and no borrow: the loops run at most 8 times (R71, R72). -/
def Obligations.LoopsEndWithinEightPasses : Prop :=
  ∀ p : Byte × Byte, (addPass^[8] p).2 = 0 ∧ (subPass^[8] p).2 = 0

/-! ## The ALU instructions -/

/-- ADD: `x[a]` becomes the sum modulo 256, no flag, `pc + 3`; a bad register byte is fatal, the first before
the second (R74). What a bad register byte does is the spec's decision D8 (log entry 7), the order D22 (log entry 20). -/
def Obligations.AddFollowsItsRule : Prop :=
  ReplacesFirstRegister .add (fun va vb => BitVec.ofNat 8 ((va.toNat + vb.toNat) % 256)) ∧ RefusesBadRegisters .add

/-- SUB: `x[a]` becomes the difference modulo 256, no flag, `pc + 3`; subtracting 0 is no error (R75;
a bad register byte is decision D8, log entry 7, the first byte before the second D22, log entry 20). -/
def Obligations.SubFollowsItsRule : Prop :=
  ReplacesFirstRegister .sub (fun va vb => BitVec.ofNat 8 ((va.toNat + (256 - vb.toNat)) % 256)) ∧
    RefusesBadRegisters .sub

/-- MUL: `x[a]` becomes the product modulo 256, no flag, `pc + 3` (R76; a bad register byte is decision D8, log entry 7, the
first byte before the second D22, log entry 20). -/
def Obligations.MulFollowsItsRule : Prop :=
  ReplacesFirstRegister .mul (fun va vb => BitVec.ofNat 8 ((va.toNat * vb.toNat) % 256)) ∧ RefusesBadRegisters .mul

/-- DIV: the floor quotient, or DivisionByZero with the destination unmodified (R77; D13, log entry 12; a bad register
byte is decision D8, log entry 7, the first byte before the second and both before the divisor D22, log entry 20). -/
def Obligations.DivFollowsItsRule : Prop :=
  DividesOrRaises .div .divisionByZero (fun va vb => va / vb) ∧ RefusesBadRegisters .div

/-- MOD: the remainder, or ModuloByZero with the destination unmodified (R78; D13, log entry 12; a bad register byte is
decision D8, log entry 7, the first byte before the second and both before the divisor D22, log entry 20). -/
def Obligations.ModFollowsItsRule : Prop :=
  DividesOrRaises .mod .moduloByZero (fun va vb => va % vb) ∧ RefusesBadRegisters .mod

/-- AND, OR and XOR: per bit, no flag, `pc + 3` (R79, R80, R81; a bad register byte is decision D8, log entry 7, the first
byte before the second D22, log entry 20). -/
def Obligations.BitwiseInstructionsFollowTheirRules : Prop :=
  ReplacesFirstRegister .and (fun va vb => BitVec.ofNat 8 (Nat.land va.toNat vb.toNat)) ∧ RefusesBadRegisters .and ∧
  ReplacesFirstRegister .or (fun va vb => BitVec.ofNat 8 (Nat.lor va.toNat vb.toNat)) ∧ RefusesBadRegisters .or ∧
  ReplacesFirstRegister .xor (fun va vb => BitVec.ofNat 8 (Nat.xor va.toNat vb.toNat)) ∧ RefusesBadRegisters .xor

/-- NOT: `255 - x[a]`, masked to 8 bits, `pc + 2` (R82; D11, log entry 10; a bad register byte is decision D8, log entry
7). -/
def Obligations.NotFollowsItsRule : Prop :=
  ReplacesRegister .not (fun va => BitVec.ofNat 8 (255 - va.toNat)) ∧ RefusesBadRegister .not

/-- SHL and SHR: logical shifts by the whole second register, 0 for an amount of 8 or more, `pc + 3` (R83, R84;
D14, log entry 13; a bad register byte is decision D8, log entry 7, the first byte before the second D22, log entry 20). -/
def Obligations.ShiftsFollowTheirRules : Prop :=
  ReplacesFirstRegister .shl
    (fun va n => BitVec.ofNat 8 (if 8 ≤ n.toNat then 0 else (va.toNat * 2 ^ n.toNat) % 256)) ∧
  RefusesBadRegisters .shl ∧
  ReplacesFirstRegister .shr (fun va n => BitVec.ofNat 8 (if 8 ≤ n.toNat then 0 else va.toNat / 2 ^ n.toNat)) ∧
  RefusesBadRegisters .shr

/-- INC and DEC: one more and one less modulo 256, no flag, `pc + 2` (R85, R86; a bad register byte is decision D8, log
entry 7). -/
def Obligations.IncAndDecFollowTheirRules : Prop :=
  ReplacesRegister .inc (fun va => BitVec.ofNat 8 ((va.toNat + 1) % 256)) ∧ RefusesBadRegister .inc ∧
  ReplacesRegister .dec (fun va => BitVec.ofNat 8 ((va.toNat + 255) % 256)) ∧ RefusesBadRegister .dec

/-- CMP: the whole of `fl` becomes 0x04, 0x01 or 0x02 by the unsigned order, no register written, `pc + 3` (R87;
bits 7:3 are decision D26, log entry 21; a bad register byte is decision D8, log entry 7, the first byte before the second
D22, log entry 20). -/
def Obligations.CmpFollowsItsRule : Prop :=
  (∀ (a b : Fin 8) (s : State), exec (.cmp (regByte a) (regByte b)) s =
    .next { s with
      fl := if s.x[a].toNat > s.x[b].toNat then 0x04 else if s.x[a].toNat = s.x[b].toNat then 0x01 else 0x02,
      pc := s.pc + 3 }) ∧
  RefusesBadRegisters .cmp

/-! ## The stack instructions -/

/-- PUSH: unless `sp - 1 <= pc + 1`, `sp` goes down by one, the cell at the new `sp` takes `x[a]`, every other cell
keeps its byte, `pc + 2`; else StackOverflow with nothing written (R100). The overflow bound is the spec's own choice
among three wordings, decision D9 (log entry 8); a bad register byte is decision D8, log entry 7. -/
def Obligations.PushFollowsItsRule : Prop :=
  (∀ (a : Fin 8) (s : State), ¬ Overflows s →
    ∃ m : Memory, exec (.push (regByte a)) s = .next { s with mem := m, sp := s.sp - 1, pc := s.pc + 2 } ∧
      ∀ addr, m.load addr = if addr = (s.sp - 1).toNat then s.x[a] else s.mem.load addr) ∧
  (∀ (a : Fin 8) (s : State), Overflows s →
    exec (.push (regByte a)) s = .next (afterRaise s .stackOverflow .none)) ∧
  RefusesBadRegister .push

/-- POP: unless `sp = 0xF4`, `x[a]` takes the byte at `sp`, `sp` goes up by one, memory keeps every byte, `pc + 2`;
else StackUnderflow with nothing written (R101; a bad register byte is decision D8, log entry 7). -/
def Obligations.PopFollowsItsRule : Prop :=
  (∀ (a : Fin 8) (s : State), s.sp ≠ 0xF4 →
    exec (.pop (regByte a)) s =
      .next { s with x := s.x.set a.val (s.mem.load s.sp.toNat), sp := s.sp + 1, pc := s.pc + 2 }) ∧
  (∀ (a : Fin 8) (s : State), s.sp = 0xF4 →
    exec (.pop (regByte a)) s = .next (afterRaise s .stackUnderflow .none)) ∧
  RefusesBadRegister .pop

/-- CALL: PUSH's check; the return address `pc + 2`, which then fits a byte, goes to the new top of stack and `pc` to
`x[a]` (R102; the check is decision D10, log entry 9, its bound D9, log entry 8; a bad register byte is decision D8, log
entry 7). -/
def Obligations.CallFollowsItsRule : Prop :=
  (∀ (a : Fin 8) (s : State), ¬ Overflows s → s.pc.toNat + 2 < 256 ∧
    ∃ m : Memory, exec (.call (regByte a)) s = .next { s with mem := m, sp := s.sp - 1, pc := s.x[a].setWidth 9 } ∧
      ∀ addr, m.load addr = if addr = (s.sp - 1).toNat then BitVec.ofNat 8 (s.pc.toNat + 2) else s.mem.load addr) ∧
  (∀ (a : Fin 8) (s : State), Overflows s →
    exec (.call (regByte a)) s = .next (afterRaise s .stackOverflow .none)) ∧
  RefusesBadRegister .call

/-- RET: POP's check; `pc` takes the byte at `sp`, `sp` goes up by one (R103; the check is decision D10, log entry 9). -/
def Obligations.RetFollowsItsRule : Prop :=
  ∀ s : State,
    (s.sp ≠ 0xF4 → exec .ret s = .next { s with sp := s.sp + 1, pc := (s.mem.load s.sp.toNat).setWidth 9 }) ∧
    (s.sp = 0xF4 → exec .ret s = .next (afterRaise s .stackUnderflow .none))

/-- PUSH then POP of the same register, when neither faults: every register and `sp` are as before, and the pushed byte
remains below `sp` (R105 a; the overflow bound is decision D9, log entry 8). -/
def Obligations.PushThenPopRestores : Prop :=
  ∀ (a : Fin 8) (s : State), ¬ Overflows s → s.sp ≠ 0xF5 →
    ∃ t u, exec (.push (regByte a)) s = .next t ∧ exec (.pop (regByte a)) t = .next u ∧
      u.x = s.x ∧ u.sp = s.sp ∧ u.fl = s.fl ∧ u.mode = s.mode ∧ u.mem.load (s.sp - 1).toNat = s.x[a]

/-- A CALL whose target cell holds a RET that the push does not overwrite: two steps later `pc` is the CALL's address plus
2 and `sp` and the registers are as before (R105 b; the opcode bytes are decision D1, the checks D9 and D10, log entries
1, 8, 9). -/
def Obligations.CallThenRetReturns : Prop :=
  ∀ (a : Fin 8) (s : State), s.mode = .running → s.mem.load s.pc.toNat = 0x50 →
    s.mem.load (s.pc.toNat + 1) = regByte a → ¬ Overflows s → s.sp ≠ 0xF5 →
    s.mem.load s.x[a].toNat = 0x11 → s.x[a].toNat ≠ (s.sp - 1).toNat →
    ∃ t u, step s = .next t ∧ t.pc = s.x[a].setWidth 9 ∧ step t = .next u ∧
      u.pc.toNat = s.pc.toNat + 2 ∧ u.sp = s.sp ∧ u.x = s.x ∧ u.mode = .running

/-! ## HLT and the jumps -/

/-- HLT: the mode becomes Halted and `pc` advances by one; nothing else changes (R117; the pc is decision D19, log
entry 18). -/
def Obligations.HltFollowsItsRule : Prop :=
  ∀ s : State, exec .hlt s = .next { s with mode := .halted, pc := s.pc + 1 }

/-- JMP: `pc` takes `x[a]`; nothing else changes (R118, R116; that JMP exists is decision D2, log entry 2;
a bad register byte is decision D8, log entry 7). -/
def Obligations.JmpFollowsItsRule : Prop :=
  (∀ (a : Fin 8) (s : State), exec (.jmp (regByte a)) s = .next { s with pc := s.x[a].setWidth 9 }) ∧
  RefusesBadRegister .jmp

/-- JEQ, JLT and JGT: each tests one bit (R119, R121, R123). That the register byte is checked whether or not the jump is
taken is R111's order of checks, the spec's decision D22 (log entry 20); a bad register byte is decision D8, log entry 7. -/
def Obligations.SingleBitJumpsFollowTheirRules : Prop :=
  JumpsWhen .jeq bitE ∧ RefusesBadRegister .jeq ∧
  JumpsWhen .jlt bitL ∧ RefusesBadRegister .jlt ∧
  JumpsWhen .jgt bitG ∧ RefusesBadRegister .jgt

/-- JNE, JLE and JGE: E clear, L or E, G or E (R120, R122, R124; D15, log entry 14). That the register byte is
checked whether or not the jump is taken is R111's order, decision D22 (log entry 20);
a bad register byte is decision D8, log entry 7. -/
def Obligations.CombinedJumpsFollowTheirRules : Prop :=
  JumpsWhen .jne (fun fl => ¬ bitE fl) ∧ RefusesBadRegister .jne ∧
  JumpsWhen .jle (fun fl => bitL fl ∨ bitE fl) ∧ RefusesBadRegister .jle ∧
  JumpsWhen .jge (fun fl => bitG fl ∨ bitE fl) ∧ RefusesBadRegister .jge

/-! ## LDI and the output instructions -/

/-- LDI: `x[a]` takes the immediate as it stands, any of 0..255, `pc + 3`; only the register byte is checked (R130;
a bad register byte is decision D8, log entry 7). -/
def Obligations.LdiFollowsItsRule : Prop :=
  (∀ (a : Fin 8) (imm : Byte) (s : State),
    exec (.ldi (regByte a) imm) s = .next { s with x := s.x.set a.val imm, pc := s.pc + 3 }) ∧
  (∀ imm : Byte, RefusesBadRegister (fun a => .ldi a imm))

/-- PRN and PRA: one event, `Num(x[a])` or `Chr(x[a])`, is appended to `out`, `pc + 2`; nothing else changes (R131, R132;
the events are decision D18, log entry 17; a bad register byte is decision D8, log entry 7). -/
def Obligations.OutputInstructionsFollowTheirRules : Prop :=
  (∀ (a : Fin 8) (s : State),
    exec (.prn (regByte a)) s = .next { s with out := s.out ++ [.num s.x[a]], pc := s.pc + 2 }) ∧
  RefusesBadRegister .prn ∧
  (∀ (a : Fin 8) (s : State),
    exec (.pra (regByte a)) s = .next { s with out := s.out ++ [.chr s.x[a]], pc := s.pc + 2 }) ∧
  RefusesBadRegister .pra

/-! ## What holds of every instruction -/

/-- The frame of every instruction that raises no fatal error (R57): registers change only at the destination; `fl` only
by CMP; `sp` only by the stack instructions; every byte of memory stays, but for the cell at `sp - 1` that PUSH and CALL
write; `out` only by PRN and PRA; the mode only by HLT; the fault record never. -/
def Obligations.FrameOfEveryInstruction : Prop :=
  ∀ (i : Instr) (s t : State), s.mode = .running → exec i s = .next t → t.mode ≠ .faulted →
    (∀ j : Fin 8, destination i ≠ some (regByte j) → t.x[j] = s.x[j]) ∧
    ((∀ a b, i ≠ .cmp a b) → t.fl = s.fl) ∧
    (usesStack i = false → t.sp = s.sp) ∧
    (∀ addr, ((∀ a, i ≠ .push a) ∧ (∀ a, i ≠ .call a)) ∨ addr ≠ (s.sp - 1).toNat →
      t.mem.load addr = s.mem.load addr) ∧
    ((∀ a, i ≠ .prn a) → (∀ a, i ≠ .pra a) → t.out = s.out) ∧
    (i ≠ .hlt → t.mode = .running) ∧
    t.fault = s.fault

/-- The program counter after every instruction that raises no fatal error: the target of a transfer that is taken, else
`pc` plus the instruction's length (R112, R18). When JNE, JLE and JGE are taken is decision D15 (log entry 14); that HLT
advances is decision D19 (log entry 18). -/
def Obligations.PcUpdateOfEveryInstruction : Prop :=
  ∀ (i : Instr) (s t : State), s.mode = .running → exec i s = .next t → t.mode ≠ .faulted → t.pc = nextPc i s

/-- The auto-advance does not wrap: a step that raises no error and whose instruction takes no transfer, an untaken
conditional jump among them, ends with `pc` the number `pc` plus the instruction's length, at most 256 (R112 b, R19; D6, log
entry 6). When JNE, JLE and JGE are taken is decision D15 (log entry 14); that HLT advances is D19 (log entry 18). -/
def Obligations.AutoAdvanceDoesNotWrap : Prop :=
  ∀ (s t : State) (i : Instr), s.mode = .running → RunsAt s i → step s = .next t → t.mode ≠ .faulted →
    redirects s.fl i = false → t.pc.toNat = s.pc.toNat + (encode i).length ∧ t.pc.toNat ≤ 256

/-- `fl` is written by CMP alone and read by the conditional jumps alone: with any other value of `fl` every instruction
but CMP and the conditional jumps does the same and leaves that value; CMP ends in the very same state whatever `fl` held,
and raises the same fatal error on a bad register byte; and every instruction but CMP leaves `fl` alone (R16). What a bad
register byte does is decision D8 (log entry 7). -/
def Obligations.FlagsAreOnlyForCompareAndJumps : Prop :=
  (∀ (i : Instr) (s : State) (f : Byte), usesFlags i = false →
    exec i { s with fl := f } = mapNext (fun t => { t with fl := f }) (exec i s)) ∧
  (∀ (a b : Fin 8) (s : State) (f : Byte),
    exec (.cmp (regByte a) (regByte b)) { s with fl := f } = exec (.cmp (regByte a) (regByte b)) s) ∧
  (∀ (a b : Byte) (s : State) (f : Byte), 7 < a.toNat ∨ 7 < b.toNat →
    exec (.cmp a b) { s with fl := f } = mapNext (fun t => { t with fl := f }) (exec (.cmp a b) s)) ∧
  (∀ (i : Instr) (s t : State), (∀ a b, i ≠ .cmp a b) → exec i s = .next t → t.fl = s.fl)

/-- `sp` is read and written by PUSH, POP, CALL and RET and by nothing else: with any other value of `sp` every other
instruction does the same and leaves that value (R13). -/
def Obligations.StackPointerIsOnlyForStackInstructions : Prop :=
  ∀ (i : Instr) (s : State) (p : Byte), usesStack i = false →
    exec i { s with sp := p } = mapNext (fun t => { t with sp := p }) (exec i s)

/-- The CORE never reads `out`: a step appends at most one event, and which one does not depend on what `out` held; every
other part of the next state is the same too (R22; D18, log entry 17). -/
def Obligations.OutputIsAppendedAndNeverRead : Prop :=
  ∀ s : State, ∃ events : List OutEvent, events.length ≤ 1 ∧
    ∀ o : List OutEvent, step { s with out := o } = mapNext (fun t => { t with out := o ++ events }) (step s)

/-- Only PUSH and CALL write memory, at `sp - 1` and nowhere else, and that cell lies above `pc + 1` (R33, R44; the
bound is decision D9, log entry 8). -/
def Obligations.OnlyPushAndCallWriteMemory : Prop :=
  ∀ s t : State, s.mode = .running → step s = .next t → t.mem ≠ s.mem →
    (∃ a : Fin 8, RunsAt s (.push (regByte a)) ∨ RunsAt s (.call (regByte a))) ∧
    s.pc.toNat + 1 < (s.sp - 1).toNat ∧
    ∀ addr, addr ≠ (s.sp - 1).toNat → t.mem.load addr = s.mem.load addr

/-- No step writes a cell at or below `pc + 1`, nor any byte of the instruction it runs (the third byte of a long one too),
nor a cell from 0xF4 up while `sp <= 0xF4` (R38, R44; the overflow bound is decision D9, log entry 8). -/
def Obligations.StepsKeepOwnBytesAndTopCells : Prop :=
  ∀ s t : State, step s = .next t →
    (∀ addr, addr ≤ s.pc.toNat + 1 → t.mem.load addr = s.mem.load addr) ∧
    (∀ (i : Instr) (addr : Nat), RunsAt s i → addr < s.pc.toNat + (encode i).length → t.mem.load addr = s.mem.load addr) ∧
    (s.sp.toNat ≤ 0xF4 → ∀ addr, 0xF4 ≤ addr → t.mem.load addr = s.mem.load addr)

/-- The run state: a step starts in Running and ends in Running, Halted or Faulted, and in Halted exactly when the
instruction is HLT (R20; the modes Idle and Faulted are decision D16, log entry 15). -/
def Obligations.HaltedOnlyByHlt : Prop :=
  ∀ s t : State, step s = .next t → s.mode = .running ∧ (t.mode = .running ∨ t.mode = .halted ∨ t.mode = .faulted) ∧
    (t.mode = .halted ↔ RunsAt s .hlt)

/-! ## Fatal errors -/

/-- A fatal error is precise: a step that ends Faulted has written the record, with the `pc` of the faulting instruction,
and the mode, and nothing else; and the record has the shape of its kind (R111, R141; D16, D17, D22, log entries 15, 16,
20). -/
def Obligations.FatalErrorsArePrecise : Prop :=
  ∀ s t : State, step s = .next t → t.mode = .faulted →
    ∃ kind info, t = afterRaise s kind info ∧ FaultRecordFits ⟨kind, s.pc, info⟩

/-- Every fatal error has the cause R142 gives for its kind (kind 7 is decision D8, log entry 7). -/
def Obligations.FatalErrorsHaveTheirCause : Prop :=
  ∀ (s t : State) (r : FaultRecord), step s = .next t → t.mode = .faulted → t.fault = some r →
    CauseHolds s r.kind r.info

/-- From a state that meets the invariant, the only address a step can find out of range is 256 (R34, R19). -/
def Obligations.OutOfRangeAddressIsAlways256 : Prop :=
  ∀ (s t : State) (r : FaultRecord) (addr : Nat), Inv s → step s = .next t → t.fault = some r →
    r.kind = .outOfBoundsAccess → r.info = .address addr → addr = 256

/-! ## Reset and the invariant -/

/-- Reset: every cell 0, `sp` 0xF4 (the source's); registers, `fl` and `pc` 0, Idle, no fault, no output (R24's values,
decisions D3, D4, D5, D16, D17, D18; log entries 3, 4, 5, 15, 16, 17). -/
def Obligations.ResetHoldsTheSpecsValues : Prop :=
  (∀ addr, State.reset.mem.load addr = 0) ∧ State.reset.sp = 0xF4 ∧ (∀ i : Fin 8, State.reset.x[i] = 0) ∧
  State.reset.fl = 0 ∧ State.reset.pc = 0 ∧ State.reset.mode = .idle ∧ State.reset.fault = none ∧ State.reset.out = []

/-- The invariant holds at reset. -/
def Obligations.ResetMeetsTheInvariant : Prop := Inv State.reset

/-- Every step keeps the invariant: the memory's canonical form, `2 <= sp <= 0xF4`, `fl` one of four values, `pc` in
0..256, a fitting fault record exactly when Faulted (R14, R15, R19, R21). -/
def Obligations.StepKeepsTheInvariant : Prop :=
  ∀ s t : State, Inv s → step s = .next t → Inv t

/-- The host's calls that change the CORE keep the invariant (R152, R153). -/
def Obligations.HostCallsKeepTheInvariant : Prop :=
  ∀ s t : State, Inv s → ((∃ bytes, loadProgram bytes s = .next t) ∨ startRun s = .next t) → Inv t

/-! ## The host's entry points -/

/-- `load_program` in Idle: a program of at most 256 bytes lands in the cells from 0 up and nothing else changes; a longer
one fills all 256 cells and then raises OutOfBoundsAccess(256); in any other mode it is refused (R152; D20, log
entry 19). -/
def Obligations.LoadProgramFollowsItsRule : Prop :=
  ∀ (bytes : List Byte) (s : State),
    (s.mode = .idle → bytes.length ≤ 256 →
      ∃ m : Memory, loadProgram bytes s = .next { s with mem := m } ∧
        ∀ addr, m.load addr = if addr < bytes.length then bytes.getD addr 0 else s.mem.load addr) ∧
    (s.mode = .idle → 256 < bytes.length →
      ∃ m : Memory, loadProgram bytes s = .next (afterRaise { s with mem := m } .outOfBoundsAccess (.address 256)) ∧
        ∀ addr, addr < 256 → m.load addr = bytes.getD addr 0) ∧
    (s.mode ≠ .idle → loadProgram bytes s = .refused .callNotAllowed)

/-- `run()` starts only in Idle and sets Running; in any other mode it is refused (R153; D20, log entry 19). -/
def Obligations.RunStartsOnlyWhenIdle : Prop :=
  ∀ s : State, (s.mode = .idle → startRun s = .next { s with mode := .running }) ∧
    (s.mode ≠ .idle → startRun s = .refused .callNotAllowed)

/-- A run that ends, ends Halted and returns normally, or Faulted and returns the record and a non-zero exit status,
whatever that free value is (R115, R141, R153; log entry 27). -/
def Obligations.EndedRunReturnsItsManner : Prop :=
  ∀ (fuel : Nat) (s t : State), Inv s → run fuel s = .ok (some t) →
    (t.mode = .halted ∧ t.runReturn = some .normal) ∨
    (t.mode = .faulted ∧ ∃ r status, t.fault = some r ∧ status ≠ 0 ∧ t.runReturn = some (.error r status))

/-- More fuel does not change how a run ended: the fuel is the model's, not the machine's (R113, U12; log entry 28). -/
def Obligations.MoreFuelDoesNotChangeARun : Prop :=
  ∀ (fuel more : Nat) (s t : State), run fuel s = .ok (some t) → run (fuel + more) s = .ok (some t)

/-- `read_register` and `peek_memory`: outside Running they answer `x[i]` for 0..7 and `mem[a]` for 0..255 and refuse
others; while Running they are refused (R154; D20, log entry 19). -/
def Obligations.IntrospectionFollowsItsRule : Prop :=
  ∀ s : State,
    (s.mode ≠ .running →
      (∀ i : Fin 8, readRegister i.val s = .ok s.x[i]) ∧ (∀ n, 8 ≤ n → readRegister n s = .error .noSuchRegister) ∧
      (∀ a, a < 256 → peekMemory a s = .ok (s.mem.load a)) ∧ (∀ a, 256 ≤ a → peekMemory a s = .error .noSuchCell)) ∧
    (s.mode = .running →
      (∀ n, readRegister n s = .error .callNotAllowed) ∧ (∀ a, peekMemory a s = .error .callNotAllowed))

/-- From reset, loading at most 256 bytes that decode to `i` at their front and starting the run makes the first step
execute `i` (R160; that `pc` starts at 0 is decision D5, log entry 5). -/
def Obligations.LoadedProgramStartsAtZero : Prop :=
  ∀ (bytes : List Byte) (i : Instr) (rest : List Byte), bytes.length ≤ 256 → decode bytes = .ok (i, rest) →
    ∃ t u, loadProgram bytes State.reset = .next t ∧ startRun t = .next u ∧ step u = exec i u

/-- Running from reset without a load raises UnknownOpcode(0x00) with `pc` 0 on the first step (R160; that `pc` starts at 0 is
decision D5, log entry 5). -/
def Obligations.EmptyRunRaisesUnknownOpcode : Prop :=
  ∃ u, startRun State.reset = .next u ∧ step u = .next (afterRaise u .unknownOpcode (.opcode 0)) ∧ u.pc = 0
end

