-- ==== Sys2Proof/Laws/Decode.lean ====
section
/-! SUPPORT. The opcode map: each byte is found again, and its top two bits give the operand count. -/

namespace Sys2Proof

/-- Looking up the byte of an operation finds that operation: no two rows share a byte (R56). -/
@[simp] theorem Op.ofByte_byte (o : Op) : Op.ofByte o.byte = some o := by cases o <;> rfl

/-- A byte that is found is the byte of the operation found. -/
theorem Op.byte_of_ofByte {b : Byte} {o : Op} (h : Op.ofByte b = some o) : o.byte = b := by
  have := List.find?_some h
  simpa using this

/-- An instruction's operation applied to its operand bytes gives it back. -/
@[simp] theorem Instr.buildFrom_operandBytes (i : Instr) : i.op.buildFrom i.operandBytes = i := by cases i <;> rfl

/-- No defined instruction announces three operand bytes (R51). -/
theorem Op.operandCount_le_two (o : Op) : operandCount o.byte ≤ 2 := by cases o <;> decide

/-- The opcode byte's top two bits count the operand bytes of every instruction (R51). -/
theorem Instr.operandBytes_length (i : Instr) : i.operandBytes.length = operandCount i.op.byte := by
  cases i <;> (simp only [Instr.operandBytes, Instr.registerOperands, List.length_cons, List.length_nil, Instr.op]; decide)

/-- An encoded instruction has one byte more than its opcode announces (R51). -/
theorem encode_length (i : Instr) : (encode i).length = operandCount i.op.byte + 1 := by
  simp [encode, Instr.operandBytes_length]

/-- Taking exactly the operand bytes that are there leaves the rest. -/
theorem takeOperands_append (bs rest : List Byte) (k : Nat) :
    takeOperands bs.length k (bs ++ rest) = .ok (bs, rest) := by
  induction bs generalizing k with
  | nil => rfl
  | cons b bs ih => simp [takeOperands, ih]

/-- What is taken stood at the front, and is as many bytes as were asked for. -/
theorem takeOperands_ok {n k : Nat} {bytes bs rest : List Byte} (h : takeOperands n k bytes = .ok (bs, rest)) :
    bytes = bs ++ rest ∧ bs.length = n := by
  induction n generalizing k bytes bs with
  | zero =>
    simp only [takeOperands, Except.ok.injEq, Prod.mk.injEq] at h
    obtain ⟨rfl, rfl⟩ := h
    exact ⟨rfl, rfl⟩
  | succ n ih =>
    cases bytes with
    | nil => simp [takeOperands] at h
    | cons b bytes =>
      simp only [takeOperands] at h
      split at h
      · next bs' rest' e =>
        simp only [Except.ok.injEq, Prod.mk.injEq] at h
        obtain ⟨rfl, rfl⟩ := h
        obtain ⟨rfl, rfl⟩ := ih e
        exact ⟨rfl, rfl⟩
      · simp at h

end Sys2Proof
end

