-- ==== Sys2Proof/Laws/Memory.lean ====
section
/-! SUPPORT. Memory: read after write, and that every memory operation keeps the canonical form. -/

namespace Sys2Proof.Machine

/-! ## Read after write -/

theorem Memory.load_erase_same (m : Memory) (a : Nat) : (m.erase a).load a = Config.unlistedByte := by
  induction m with
  | nil => rfl
  | cons c rest ih =>
    obtain ⟨k, v⟩ := c
    by_cases h : k = a
    · simpa [Memory.erase, h] using ih
    · simpa [Memory.erase, Memory.load, h] using ih

theorem Memory.load_erase_other (m : Memory) {a b : Nat} (hab : b ≠ a) : (m.erase a).load b = m.load b := by
  induction m with
  | nil => rfl
  | cons c rest ih =>
    obtain ⟨k, v⟩ := c
    by_cases h : k = a
    · have hk : k ≠ b := fun e => hab (e.symm.trans h)
      simpa [Memory.erase, Memory.load, h, hk, Ne.symm hab] using ih
    · by_cases hb : k = b
      · simp [Memory.erase, Memory.load, hb, hab]
      · simpa [Memory.erase, Memory.load, h, hb] using ih

theorem Memory.load_place_other (m : Memory) {a b : Nat} (v : Byte) (hab : b ≠ a) :
    (m.place a v).load b = m.load b := by
  induction m with
  | nil => simp [Memory.place, Memory.load, Ne.symm hab]
  | cons c rest ih =>
    obtain ⟨k, w⟩ := c
    by_cases h : a < k
    · simp [Memory.place, Memory.load, h, Ne.symm hab]
    · simp [Memory.place, Memory.load, h, ih]

theorem Memory.load_place_same (m : Memory) (a : Nat) (v : Byte) :
    ((m.erase a).place a v).load a = v := by
  induction m with
  | nil => simp [Memory.erase, Memory.place, Memory.load]
  | cons c rest ih =>
    obtain ⟨k, w⟩ := c
    by_cases h : k = a
    · simpa [Memory.erase, h] using ih
    · by_cases hlt : a < k
      · simp [Memory.erase, Memory.place, Memory.load, h, hlt]
      · simpa [Memory.erase, Memory.place, Memory.load, h, hlt] using ih

/-- A cell reads as the byte last written to it (R32, R41). -/
@[simp] theorem Memory.load_store_same (m : Memory) (a : Nat) (v : Byte) : (m.store a v).load a = v := by
  unfold Memory.store
  split
  · next h => rw [Memory.load_erase_same, h]
  · exact Memory.load_place_same m a v

/-- A write changes no other cell: "exactly one cell changes" (R32). -/
theorem Memory.load_store_other (m : Memory) {a b : Nat} (v : Byte) (hab : b ≠ a) :
    (m.store a v).load b = m.load b := by
  unfold Memory.store
  split
  · exact Memory.load_erase_other m hab
  · rw [Memory.load_place_other _ v hab, Memory.load_erase_other m hab]

theorem Memory.load_store (m : Memory) (a b : Nat) (v : Byte) :
    (m.store a v).load b = if b = a then v else m.load b := by
  by_cases h : b = a
  · subst h; simp
  · simp [h, Memory.load_store_other m v h]

/-! ## The canonical form -/

theorem Memory.wfFrom_mono {m : Memory} {lo lo' : Nat} (hle : lo' ≤ lo) (h : m.wfFrom lo = true) :
    m.wfFrom lo' = true := by
  cases m with
  | nil => rfl
  | cons c rest =>
    obtain ⟨k, v⟩ := c
    simp only [Memory.wfFrom, Bool.and_eq_true, decide_eq_true_eq] at h ⊢
    exact ⟨⟨⟨by omega, h.1.1.2⟩, h.1.2⟩, h.2⟩

theorem Memory.erase_wfFrom {m : Memory} {lo : Nat} (a : Nat) (h : m.wfFrom lo = true) :
    (m.erase a).wfFrom lo = true := by
  induction m generalizing lo with
  | nil => rfl
  | cons c rest ih =>
    obtain ⟨k, v⟩ := c
    simp only [Memory.wfFrom, Bool.and_eq_true, decide_eq_true_eq] at h
    by_cases hk : k = a
    · have := Memory.wfFrom_mono (show lo ≤ k + 1 by omega) (ih h.2)
      simpa [Memory.erase, hk] using this
    · have := ih h.2
      simp only [Memory.erase] at this
      simp only [Memory.erase, bne_iff_ne, ne_eq, hk, not_false_eq_true, List.filter_cons_of_pos,
        Memory.wfFrom, this, Bool.and_true, Bool.and_eq_true, decide_eq_true_eq]
      simpa using h.1

theorem Memory.place_wfFrom {m : Memory} {lo a : Nat} {v : Byte} (hlo : lo ≤ a) (ha : a < Config.memSize)
    (hv : v ≠ Config.unlistedByte) (hm : m.wfFrom lo = true) (habs : ∀ c ∈ m, c.1 ≠ a) :
    (m.place a v).wfFrom lo = true := by
  induction m generalizing lo with
  | nil => simp [Memory.place, Memory.wfFrom, hlo, ha, hv]
  | cons c rest ih =>
    obtain ⟨k, w⟩ := c
    have hk : k ≠ a := habs (k, w) (by simp)
    simp only [Memory.wfFrom, Bool.and_eq_true, decide_eq_true_eq] at hm
    by_cases hlt : a < k
    · have hak : a + 1 ≤ k := hlt
      simp [Memory.place, hlt, Memory.wfFrom, hlo, ha, hv, hak, hm]
    · have hrest : Memory.wfFrom (k + 1) (Memory.place rest a v) = true :=
        ih (by omega) hm.2 fun c hc => habs c (by simp [hc])
      have hw := hm.1.2
      simp [Memory.place, hlt, Memory.wfFrom, hm.1.1.1, hm.1.1.2, hrest]
      simpa using hw

/-- Every write to an existing cell keeps the canonical form. -/
theorem Memory.store_wf {m : Memory} {a : Nat} (v : Byte) (ha : a < Config.memSize) (h : m.wf = true) :
    (m.store a v).wf = true := by
  unfold Memory.store
  split
  · exact Memory.erase_wfFrom a h
  · next hv =>
    refine Memory.place_wfFrom (Nat.zero_le a) ha hv (Memory.erase_wfFrom a h) ?_
    intro c hc
    simpa [Memory.erase] using (List.mem_filter.1 hc).2

/-- Placing bytes keeps the canonical form. -/
theorem placeBytes_wf (bs : List Byte) (addr : Nat) {m : Memory} (h : m.wf = true) :
    (placeBytes bs addr m).wf = true := by
  induction bs generalizing addr m with
  | nil => exact h
  | cons b bs ih =>
    refine ih (addr + 1) ?_
    split
    · next ha => exact Memory.store_wf b ha h
    · exact h

/-- `State.reset`'s memory is in canonical form. -/
theorem State.reset_mem_wf : State.reset.mem.wf = true := rfl

end Sys2Proof.Machine
end

