-- ==== Sys2Proof/Laws/State.lean ====
section
/-! SUPPORT. What each field of State is after each named update, true by definition; and registers read after written. -/

namespace Sys2Proof.Machine

variable (s : State)

/-! ## setReg -/

@[simp] theorem State.setReg_mem (i : Fin 8) (v : Byte) : (s.setReg i v).mem = s.mem := rfl
@[simp] theorem State.setReg_x (i : Fin 8) (v : Byte) : (s.setReg i v).x = s.x.set i.val v := rfl
@[simp] theorem State.setReg_sp (i : Fin 8) (v : Byte) : (s.setReg i v).sp = s.sp := rfl
@[simp] theorem State.setReg_fl (i : Fin 8) (v : Byte) : (s.setReg i v).fl = s.fl := rfl
@[simp] theorem State.setReg_pc (i : Fin 8) (v : Byte) : (s.setReg i v).pc = s.pc := rfl
@[simp] theorem State.setReg_mode (i : Fin 8) (v : Byte) : (s.setReg i v).mode = s.mode := rfl
@[simp] theorem State.setReg_fault (i : Fin 8) (v : Byte) : (s.setReg i v).fault = s.fault := rfl
@[simp] theorem State.setReg_out (i : Fin 8) (v : Byte) : (s.setReg i v).out = s.out := rfl

/-! ## advance -/

@[simp] theorem State.advance_mem (n : Nat) : (s.advance n).mem = s.mem := rfl
@[simp] theorem State.advance_x (n : Nat) : (s.advance n).x = s.x := rfl
@[simp] theorem State.advance_sp (n : Nat) : (s.advance n).sp = s.sp := rfl
@[simp] theorem State.advance_fl (n : Nat) : (s.advance n).fl = s.fl := rfl
@[simp] theorem State.advance_pc (n : Nat) : (s.advance n).pc = s.pc + BitVec.ofNat 9 n := rfl
@[simp] theorem State.advance_mode (n : Nat) : (s.advance n).mode = s.mode := rfl
@[simp] theorem State.advance_fault (n : Nat) : (s.advance n).fault = s.fault := rfl
@[simp] theorem State.advance_out (n : Nat) : (s.advance n).out = s.out := rfl

/-! ## jumpTo -/

@[simp] theorem State.jumpTo_mem (target : Byte) : (s.jumpTo target).mem = s.mem := rfl
@[simp] theorem State.jumpTo_x (target : Byte) : (s.jumpTo target).x = s.x := rfl
@[simp] theorem State.jumpTo_sp (target : Byte) : (s.jumpTo target).sp = s.sp := rfl
@[simp] theorem State.jumpTo_fl (target : Byte) : (s.jumpTo target).fl = s.fl := rfl
@[simp] theorem State.jumpTo_pc (target : Byte) : (s.jumpTo target).pc = target.setWidth 9 := rfl
@[simp] theorem State.jumpTo_mode (target : Byte) : (s.jumpTo target).mode = s.mode := rfl
@[simp] theorem State.jumpTo_fault (target : Byte) : (s.jumpTo target).fault = s.fault := rfl
@[simp] theorem State.jumpTo_out (target : Byte) : (s.jumpTo target).out = s.out := rfl

/-! ## emit -/

@[simp] theorem State.emit_mem (ev : OutEvent) : (s.emit ev).mem = s.mem := rfl
@[simp] theorem State.emit_x (ev : OutEvent) : (s.emit ev).x = s.x := rfl
@[simp] theorem State.emit_sp (ev : OutEvent) : (s.emit ev).sp = s.sp := rfl
@[simp] theorem State.emit_fl (ev : OutEvent) : (s.emit ev).fl = s.fl := rfl
@[simp] theorem State.emit_pc (ev : OutEvent) : (s.emit ev).pc = s.pc := rfl
@[simp] theorem State.emit_mode (ev : OutEvent) : (s.emit ev).mode = s.mode := rfl
@[simp] theorem State.emit_fault (ev : OutEvent) : (s.emit ev).fault = s.fault := rfl
@[simp] theorem State.emit_out (ev : OutEvent) : (s.emit ev).out = s.out ++ [ev] := rfl

@[simp] theorem State.advance_reg (n : Nat) (j : Fin 8) : (s.advance n).reg j = s.reg j := rfl
@[simp] theorem State.jumpTo_reg (target : Byte) (j : Fin 8) : (s.jumpTo target).reg j = s.reg j := rfl
@[simp] theorem State.emit_reg (ev : OutEvent) (j : Fin 8) : (s.emit ev).reg j = s.reg j := rfl

/-- A register reads as the value last written to it; the others keep theirs (R11). -/
@[simp] theorem State.setReg_reg (i : Fin 8) (v : Byte) (j : Fin 8) :
    (s.setReg i v).reg j = if i = j then v else s.reg j := by
  simp only [State.reg, State.setReg, Vector.getElem_set, Fin.ext_iff]

end Sys2Proof.Machine
end

