-- ==== Sys2Proof/Laws/Ops.lean ====
section
/-! SUPPORT. One lemma per shared operation that says once everything it can do. -/

namespace Sys2Proof.Machine

/-- The state a fatal error leaves (R141). -/
def State.afterFatal (s : State) (kind : FatalKind) (info : FaultInfo) : State :=
  { s with fault := some ⟨kind, s.pc, info⟩, mode := .faulted }

/-- Raising answers the state R141 describes. -/
theorem raise_eq (kind : FatalKind) (info : FaultInfo) (s : State) :
    raise kind info s = .next (s.afterFatal kind info) := rfl

/-- A read in range goes on with the cell's byte. -/
theorem memRead_inRange {addr : Nat} (h : addr < Config.memSize) (s : State) (k : Byte → Answer) :
    memRead addr s k = k (s.mem.load addr) := if_neg (Nat.not_le.2 h)

/-- A read out of range is fatal (R31). -/
theorem memRead_outOfRange {addr : Nat} (h : Config.memSize ≤ addr) (s : State) (k : Byte → Answer) :
    memRead addr s k = raise .outOfBoundsAccess (.address addr) s := if_pos h

/-- A write in range goes on with one cell changed. -/
theorem memWrite_inRange {addr : Nat} (h : addr < Config.memSize) (v : Byte) (s : State) (k : State → Answer) :
    memWrite addr v s k = k { s with mem := s.mem.store addr v } := if_neg (Nat.not_le.2 h)

/-- A write out of range is fatal (R32). -/
theorem memWrite_outOfRange {addr : Nat} (h : Config.memSize ≤ addr) (v : Byte) (s : State) (k : State → Answer) :
    memWrite addr v s k = raise .outOfBoundsAccess (.address addr) s := if_pos h

/-- A byte is always an address inside memory (R34). -/
theorem byte_lt_memSize (b : Byte) : b.toNat < Config.memSize := b.isLt

/-- A legal register byte goes on with the register it names (R54). -/
theorem withReg_legal {b : Byte} (h : b.toNat < 8) (s : State) (k : Fin 8 → Answer) :
    withReg b s k = k ⟨b.toNat, h⟩ := dif_pos h

/-- A register byte above 7 is fatal (R54). -/
theorem withReg_illegal {b : Byte} (h : 7 < b.toNat) (s : State) (k : Fin 8 → Answer) :
    withReg b s k = raise .invalidRegister (.index b) s := dif_neg (Nat.not_lt.2 h)

/-- The byte that names register `i` goes on with `i`. -/
@[simp] theorem withReg_ofNat (i : Fin 8) (s : State) (k : Fin 8 → Answer) :
    withReg (BitVec.ofNat 8 i.val) s k = k i := by
  have hi : (BitVec.ofNat 8 i.val).toNat = i.val := by
    rw [BitVec.toNat_ofNat]
    exact Nat.mod_eq_of_lt (by omega)
  rw [withReg_legal (by omega)]
  exact congrArg k (Fin.ext hi)

/-- `withReg` either raises InvalidRegister or goes on; there is no third way. -/
theorem withReg_cases (b : Byte) (s : State) (k : Fin 8 → Answer) :
    (7 < b.toNat ∧ withReg b s k = .next (s.afterFatal .invalidRegister (.index b))) ∨
    (∃ h : b.toNat < 8, withReg b s k = k ⟨b.toNat, h⟩) := by
  by_cases h : b.toNat < 8
  · exact .inr ⟨h, withReg_legal h s k⟩
  · exact .inl ⟨by omega, withReg_illegal (by omega) s k⟩

/-- `withRegs` raises for the first illegal operand in order, or goes on with both registers (R111). -/
theorem withRegs_cases (a b : Byte) (s : State) (k : Fin 8 → Fin 8 → Answer) :
    (7 < a.toNat ∧ withRegs a b s k = .next (s.afterFatal .invalidRegister (.index a))) ∨
    (a.toNat < 8 ∧ 7 < b.toNat ∧ withRegs a b s k = .next (s.afterFatal .invalidRegister (.index b))) ∨
    (∃ (ha : a.toNat < 8) (hb : b.toNat < 8), withRegs a b s k = k ⟨a.toNat, ha⟩ ⟨b.toNat, hb⟩) := by
  unfold withRegs
  rcases withReg_cases a s fun ra => withReg b s fun rb => k ra rb with ⟨h, e⟩ | ⟨ha, e⟩
  · exact .inl ⟨h, e⟩
  · rcases withReg_cases b s fun rb => k ⟨a.toNat, ha⟩ rb with ⟨h, e'⟩ | ⟨hb, e'⟩
    · exact .inr (.inl ⟨ha, h, e.trans e'⟩)
    · exact .inr (.inr ⟨ha, hb, e.trans e'⟩)

/-- The overflow check in naturals: `sp <= pc + 2` (R100). -/
theorem State.stackFull_iff (s : State) : s.stackFull = true ↔ s.sp.toNat ≤ s.pc.toNat + 2 := by
  unfold State.stackFull stackGuard
  rw [decide_eq_true_iff]
  omega

/-- A push that passes its check leaves room below: the new `sp` is `sp - 1` as a number (R14). -/
theorem State.sp_pred_toNat {s : State} (h : ¬ s.stackFull = true) : (s.sp - 1).toNat = s.sp.toNat - 1 := by
  rw [State.stackFull_iff] at h
  have := s.sp.isLt
  bv_omega

/-- `pushByte` either overflows, or writes one cell and lowers `sp`; it never leaves memory. -/
theorem pushByte_cases (v : Byte) (s : State) (k : State → Answer) :
    (s.stackFull = true ∧ pushByte v s k = .next (s.afterFatal .stackOverflow .none)) ∨
    (¬ s.stackFull = true ∧
      pushByte v s k = k { s with mem := s.mem.store (s.sp - 1).toNat v, sp := s.sp - 1 }) := by
  unfold pushByte
  by_cases h : s.stackFull = true
  · exact .inl ⟨h, if_pos h⟩
  · refine .inr ⟨h, ?_⟩
    rw [if_neg h, memWrite_inRange (byte_lt_memSize _)]

/-- `popByte` either underflows, or reads the top byte and raises `sp`; it never leaves memory. -/
theorem popByte_cases (s : State) (k : Byte → State → Answer) :
    (s.sp = Config.spInit ∧ popByte s k = .next (s.afterFatal .stackUnderflow .none)) ∨
    (s.sp ≠ Config.spInit ∧ popByte s k = k (s.mem.load s.sp.toNat) { s with sp := s.sp + 1 }) := by
  unfold popByte
  by_cases h : s.sp = Config.spInit
  · exact .inl ⟨h, if_pos h⟩
  · refine .inr ⟨h, ?_⟩
    rw [if_neg h, memRead_inRange (byte_lt_memSize _)]

end Sys2Proof.Machine
end

