-- ==== Sys2Proof/Laws/Fetch.lean ====
section
/-! SUPPORT. What fetching an instruction can do, and that it agrees with the decoder on the bytes at `pc`. -/

namespace Sys2Proof.Machine

/-- From an existing cell, the bytes are that cell's and those from the next. -/
theorem Memory.bytesFrom_cons (m : Memory) {a : Nat} (h : a < Config.memSize) :
    m.bytesFrom a = m.load a :: m.bytesFrom (a + 1) := by
  obtain ⟨n, hn⟩ : ∃ n, Config.memSize - a = n + 1 := ⟨Config.memSize - a - 1, by omega⟩
  have hn' : Config.memSize - (a + 1) = n := by omega
  simp [Memory.bytesFrom, hn, hn', List.range'_succ]

/-- From beyond the last cell there are no bytes. -/
theorem Memory.bytesFrom_nil (m : Memory) {a : Nat} (h : Config.memSize ≤ a) : m.bytesFrom a = [] := by
  simp [Memory.bytesFrom, Nat.sub_eq_zero_of_le h]

/-- Operand bytes that are all inside memory are handed on, and the decoder takes the same ones. -/
theorem fetchOperands_inside {n addr : Nat} (h : addr + n ≤ Config.memSize) (k : Nat) (s : State) :
    ∃ bs, takeOperands n k (s.mem.bytesFrom addr) = .ok (bs, s.mem.bytesFrom (addr + n)) ∧
      ∀ K : List Byte → Answer, fetchOperands n addr s K = K bs := by
  induction n generalizing addr k with
  | zero => exact ⟨[], rfl, fun _ => rfl⟩
  | succ n ih =>
    obtain ⟨bs, ht, hf⟩ := ih (addr := addr + 1) (by omega) (k + 1)
    refine ⟨s.mem.load addr :: bs, ?_, fun K => ?_⟩
    · rw [Memory.bytesFrom_cons _ (by omega : addr < Config.memSize)]
      simp only [takeOperands, ht]
      rw [show addr + 1 + n = addr + (n + 1) by omega]
    · rw [fetchOperands, memRead_inRange (by omega : addr < Config.memSize), hf]

/-- Operand bytes that reach beyond the last cell are fatal at address 256, and the decoder misses the same one. -/
theorem fetchOperands_beyond {n addr : Nat} (ha : addr ≤ Config.memSize) (h : Config.memSize < addr + n) (k : Nat)
    (s : State) (K : List Byte → Answer) :
    takeOperands n k (s.mem.bytesFrom addr) = .error (.missingOperand (k + (Config.memSize - addr))) ∧
      fetchOperands n addr s K = .next (s.afterFatal .outOfBoundsAccess (.address Config.memSize)) := by
  induction n generalizing addr k K with
  | zero => omega
  | succ n ih =>
    by_cases hlt : addr < Config.memSize
    · obtain ⟨ht, hf⟩ := ih (addr := addr + 1) (by omega) (by omega) (k + 1) fun bs => K (s.mem.load addr :: bs)
      constructor
      · rw [Memory.bytesFrom_cons _ hlt]
        simp only [takeOperands, ht]
        rw [show k + 1 + (Config.memSize - (addr + 1)) = k + (Config.memSize - addr) by omega]
      · rw [fetchOperands, memRead_inRange hlt, hf]
    · obtain rfl : addr = Config.memSize := by omega
      constructor
      · rw [Memory.bytesFrom_nil _ (Nat.le_refl _)]
        simp [takeOperands]
      · rw [fetchOperands, memRead_outOfRange (Nat.le_refl _), raise_eq]

/-- Fetching goes on with the instruction the bytes at `pc` decode to; or the opcode is out of range; or it is not
recognised; or an operand byte lies beyond the last cell. In the last three it is fatal and the bytes do not decode. -/
theorem fetch_cases (s : State) (k : Instr → Answer) :
    (∃ i rest, decode (s.mem.bytesFrom s.pc.toNat) = .ok (i, rest) ∧ fetch s k = k i) ∨
    (Config.memSize ≤ s.pc.toNat ∧ decode (s.mem.bytesFrom s.pc.toNat) = .error .noOpcode ∧
      fetch s k = .next (s.afterFatal .outOfBoundsAccess (.address s.pc.toNat))) ∨
    (s.pc.toNat < Config.memSize ∧ Op.ofByte (s.mem.load s.pc.toNat) = none ∧
      decode (s.mem.bytesFrom s.pc.toNat) = .error (.unknownOpcode (s.mem.load s.pc.toNat)) ∧
      fetch s k = .next (s.afterFatal .unknownOpcode (.opcode (s.mem.load s.pc.toNat)))) ∨
    (s.pc.toNat < Config.memSize ∧ (∃ o, Op.ofByte (s.mem.load s.pc.toNat) = some o) ∧
      Config.memSize ≤ s.pc.toNat + operandCount (s.mem.load s.pc.toNat) ∧
      decode (s.mem.bytesFrom s.pc.toNat) = .error (.missingOperand (Config.memSize - s.pc.toNat)) ∧
      fetch s k = .next (s.afterFatal .outOfBoundsAccess (.address Config.memSize))) := by
  by_cases hpc : s.pc.toNat < Config.memSize
  · have hb := Memory.bytesFrom_cons s.mem hpc
    have hf : fetch s k = match Op.ofByte (s.mem.load s.pc.toNat) with
        | none => raise .unknownOpcode (.opcode (s.mem.load s.pc.toNat)) s
        | some o => fetchOperands (operandCount (s.mem.load s.pc.toNat)) (s.pc.toNat + 1) s
            fun bs => k (o.buildFrom bs) := memRead_inRange hpc s _
    rw [hb, hf, decode]
    cases ho : Op.ofByte (s.mem.load s.pc.toNat) with
    | none => exact .inr (.inr (.inl ⟨hpc, rfl, rfl, rfl⟩))
    | some o =>
      by_cases hin : s.pc.toNat + 1 + operandCount (s.mem.load s.pc.toNat) ≤ Config.memSize
      · obtain ⟨bs, ht, hK⟩ := fetchOperands_inside hin 1 s
        exact .inl ⟨o.buildFrom bs,
          s.mem.bytesFrom (s.pc.toNat + 1 + operandCount (s.mem.load s.pc.toNat)), by simp only [ht], hK _⟩
      · obtain ⟨ht, hK⟩ := fetchOperands_beyond (n := operandCount (s.mem.load s.pc.toNat))
          (addr := s.pc.toNat + 1) hpc (by omega) 1 s fun bs => k (o.buildFrom bs)
        refine .inr (.inr (.inr ⟨hpc, ⟨o, rfl⟩, by omega, ?_, hK⟩))
        simp only [ht]
        rw [show 1 + (Config.memSize - (s.pc.toNat + 1)) = Config.memSize - s.pc.toNat by omega]
  · have hle : Config.memSize ≤ s.pc.toNat := Nat.le_of_not_lt hpc
    refine .inr (.inl ⟨hle, ?_, ?_⟩)
    · rw [Memory.bytesFrom_nil _ hle]; rfl
    · exact memRead_outOfRange hle s _

end Sys2Proof.Machine
end

