-- ==== Sys2Proof/Laws/Operands.lean ====
section
/-! SUPPORT. One lemma per operand form that says once everything an instruction of that form can do. -/

namespace Sys2Proof.Machine

/-- A one-register ALU instruction raises InvalidRegister, or replaces its register and advances by two. -/
theorem unaryAlu_cases (f : Byte → Byte) (a : Byte) (s : State) :
    (7 < a.toNat ∧ unaryAlu f a s = .next (s.afterFatal .invalidRegister (.index a))) ∨
    (∃ ha : a.toNat < 8, unaryAlu f a s =
      .next ((s.setReg ⟨a.toNat, ha⟩ (f (s.reg ⟨a.toNat, ha⟩))).advance 2)) :=
  withReg_cases a s _

/-- A two-register ALU instruction raises InvalidRegister, or replaces its first register and advances by three. -/
theorem binaryAlu_cases (f : Byte → Byte → Byte) (a b : Byte) (s : State) :
    (7 < a.toNat ∧ binaryAlu f a b s = .next (s.afterFatal .invalidRegister (.index a))) ∨
    (a.toNat < 8 ∧ 7 < b.toNat ∧ binaryAlu f a b s = .next (s.afterFatal .invalidRegister (.index b))) ∨
    (∃ (ha : a.toNat < 8) (hb : b.toNat < 8), binaryAlu f a b s =
      .next ((s.setReg ⟨a.toNat, ha⟩ (f (s.reg ⟨a.toNat, ha⟩) (s.reg ⟨b.toNat, hb⟩))).advance 3)) :=
  withRegs_cases a b s _

/-- A division raises InvalidRegister, or its own kind for a zero divisor, or replaces its first register. -/
theorem divideAlu_cases (kind : FatalKind) (f : Byte → Byte → Byte) (a b : Byte) (s : State) :
    (7 < a.toNat ∧ divideAlu kind f a b s = .next (s.afterFatal .invalidRegister (.index a))) ∨
    (a.toNat < 8 ∧ 7 < b.toNat ∧ divideAlu kind f a b s = .next (s.afterFatal .invalidRegister (.index b))) ∨
    (∃ (_ : a.toNat < 8) (hb : b.toNat < 8), s.reg ⟨b.toNat, hb⟩ = 0 ∧
      divideAlu kind f a b s = .next (s.afterFatal kind .none)) ∨
    (∃ (ha : a.toNat < 8) (hb : b.toNat < 8), s.reg ⟨b.toNat, hb⟩ ≠ 0 ∧ divideAlu kind f a b s =
      .next ((s.setReg ⟨a.toNat, ha⟩ (f (s.reg ⟨a.toNat, ha⟩) (s.reg ⟨b.toNat, hb⟩))).advance 3)) := by
  unfold divideAlu
  rcases withRegs_cases a b s fun ra rb =>
      if s.reg rb = 0 then raise kind .none s
      else .next ((s.setReg ra (f (s.reg ra) (s.reg rb))).advance 3) with h | h | ⟨ha, hb, e⟩
  · exact .inl h
  · exact .inr (.inl h)
  · by_cases hz : s.reg ⟨b.toNat, hb⟩ = 0
    · exact .inr (.inr (.inl ⟨ha, hb, hz, e.trans (if_pos hz)⟩))
    · exact .inr (.inr (.inr ⟨ha, hb, hz, e.trans (if_neg hz)⟩))

/-- A conditional jump raises InvalidRegister, or jumps, or advances by two. -/
theorem condJump_cases (cond : Byte → Bool) (a : Byte) (s : State) :
    (7 < a.toNat ∧ condJump cond a s = .next (s.afterFatal .invalidRegister (.index a))) ∨
    (∃ ha : a.toNat < 8, cond s.fl = true ∧ condJump cond a s = .next (s.jumpTo (s.reg ⟨a.toNat, ha⟩))) ∨
    (a.toNat < 8 ∧ cond s.fl = false ∧ condJump cond a s = .next (s.advance 2)) := by
  unfold condJump
  rcases withReg_cases a s fun ra =>
      .next (if cond s.fl then s.jumpTo (s.reg ra) else s.advance 2) with h | ⟨ha, e⟩
  · exact .inl h
  · by_cases hc : cond s.fl = true
    · exact .inr (.inl ⟨ha, hc, by rw [e, if_pos hc]⟩)
    · exact .inr (.inr ⟨ha, by simpa using hc, by rw [e, if_neg hc]⟩)

/-- An output instruction raises InvalidRegister, or appends its event and advances by two. -/
theorem printReg_cases (event : Byte → OutEvent) (a : Byte) (s : State) :
    (7 < a.toNat ∧ printReg event a s = .next (s.afterFatal .invalidRegister (.index a))) ∨
    (∃ ha : a.toNat < 8, printReg event a s = .next ((s.emit (event (s.reg ⟨a.toNat, ha⟩))).advance 2)) :=
  withReg_cases a s _

end Sys2Proof.Machine
end

