-- ==== Sys2Proof/Laws/PerInstr.lean ====
section
/-! SUPPORT. What holds of every instruction as syntax, one lemma per constructor. -/

namespace Sys2Proof.Laws.EncodedLength

/-- The encoding is one opcode byte and as many operand bytes as the opcode's top two bits say, at most
two: `N + 1` bytes, `N <= 2` (R51, R56). -/
def Statement (i : Instr) : Prop :=
  (encode i).length = operandCount i.op.byte + 1 ∧ operandCount i.op.byte ≤ 2

theorem hlt : Statement .hlt := ⟨encode_length _, Op.operandCount_le_two _⟩
theorem ret : Statement .ret := ⟨encode_length _, Op.operandCount_le_two _⟩
theorem push (a : Byte) : Statement (.push a) := ⟨encode_length _, Op.operandCount_le_two _⟩
theorem pop (a : Byte) : Statement (.pop a) := ⟨encode_length _, Op.operandCount_le_two _⟩
theorem prn (a : Byte) : Statement (.prn a) := ⟨encode_length _, Op.operandCount_le_two _⟩
theorem pra (a : Byte) : Statement (.pra a) := ⟨encode_length _, Op.operandCount_le_two _⟩
theorem call (a : Byte) : Statement (.call a) := ⟨encode_length _, Op.operandCount_le_two _⟩
theorem jmp (a : Byte) : Statement (.jmp a) := ⟨encode_length _, Op.operandCount_le_two _⟩
theorem jeq (a : Byte) : Statement (.jeq a) := ⟨encode_length _, Op.operandCount_le_two _⟩
theorem jne (a : Byte) : Statement (.jne a) := ⟨encode_length _, Op.operandCount_le_two _⟩
theorem jgt (a : Byte) : Statement (.jgt a) := ⟨encode_length _, Op.operandCount_le_two _⟩
theorem jlt (a : Byte) : Statement (.jlt a) := ⟨encode_length _, Op.operandCount_le_two _⟩
theorem jle (a : Byte) : Statement (.jle a) := ⟨encode_length _, Op.operandCount_le_two _⟩
theorem jge (a : Byte) : Statement (.jge a) := ⟨encode_length _, Op.operandCount_le_two _⟩
theorem inc (a : Byte) : Statement (.inc a) := ⟨encode_length _, Op.operandCount_le_two _⟩
theorem dec (a : Byte) : Statement (.dec a) := ⟨encode_length _, Op.operandCount_le_two _⟩
theorem not (a : Byte) : Statement (.not a) := ⟨encode_length _, Op.operandCount_le_two _⟩
theorem ldi (a b : Byte) : Statement (.ldi a b) := ⟨encode_length _, Op.operandCount_le_two _⟩
theorem add (a b : Byte) : Statement (.add a b) := ⟨encode_length _, Op.operandCount_le_two _⟩
theorem sub (a b : Byte) : Statement (.sub a b) := ⟨encode_length _, Op.operandCount_le_two _⟩
theorem mul (a b : Byte) : Statement (.mul a b) := ⟨encode_length _, Op.operandCount_le_two _⟩
theorem div (a b : Byte) : Statement (.div a b) := ⟨encode_length _, Op.operandCount_le_two _⟩
theorem mod (a b : Byte) : Statement (.mod a b) := ⟨encode_length _, Op.operandCount_le_two _⟩
theorem cmp (a b : Byte) : Statement (.cmp a b) := ⟨encode_length _, Op.operandCount_le_two _⟩
theorem and (a b : Byte) : Statement (.and a b) := ⟨encode_length _, Op.operandCount_le_two _⟩
theorem or (a b : Byte) : Statement (.or a b) := ⟨encode_length _, Op.operandCount_le_two _⟩
theorem xor (a b : Byte) : Statement (.xor a b) := ⟨encode_length _, Op.operandCount_le_two _⟩
theorem shl (a b : Byte) : Statement (.shl a b) := ⟨encode_length _, Op.operandCount_le_two _⟩
theorem shr (a b : Byte) : Statement (.shr a b) := ⟨encode_length _, Op.operandCount_le_two _⟩

end Sys2Proof.Laws.EncodedLength
end

