-- ==== Sys2Proof/Tests/Slice0.lean ====
section
/-! SUPPORT. The model's own tests: small steps whose results the spec gives, and a witness for each statement with hypotheses. -/

namespace Sys2Proof.Tests

open Machine Claims

/-! ## Building small states -/

/-- The reset machine, Running, with `mem[a] = b` for the cells listed. -/
def running (cells : List (Nat × Byte)) : State :=
  { State.reset with mem := cells.foldl (fun m c => m.store c.1 c.2) [], mode := .running }

/-- The cells of a program at address 0. -/
def image (bytes : List Byte) : State := { State.reset with mem := placeBytes bytes 0 [], mode := .running }

/-- The next state of an answer, if there is one. -/
def nextOf : Answer → Option State
  | .next t => some t
  | _ => none

/-- The reset machine, Running, with two registers set. -/
def withTwo (v0 v1 : Byte) : State := ((running []).setReg 0 v0).setReg 1 v1

/-- A field of the state an instruction leaves, from `R0` and `R1`. -/
def after {α : Type} (i : Instr) (v0 v1 : Byte) (f : State → α) : Option α := (nextOf (exec i (withTwo v0 v1))).map f

/-- The mode, the fault record and the pc after one answer. -/
def verdict (r : Answer) : Option (Mode × Option FaultRecord × PcWord) := (nextOf r).map fun t => (t.mode, t.fault, t.pc)

/-! ## Well-formedness: each check refuses its ill-formed term, and no other (R53, R54) -/

theorem test_wf_refuses_first_register_8 : (Instr.add 8 0).wellFormed = false := by decide
theorem test_wf_refuses_second_register_8 : (Instr.add 0 8).wellFormed = false := by decide
theorem test_wf_refuses_one_register_255 : (Instr.push 0xFF).wellFormed = false := by decide
theorem test_wf_refuses_ldi_register_8 : (Instr.ldi 8 0).wellFormed = false := by decide
theorem test_wf_accepts_any_immediate : (Instr.ldi 7 0xFF).wellFormed = true := by decide
theorem test_wf_accepts_register_7 : (Instr.add 7 7).wellFormed = true ∧ Instr.hlt.wellFormed = true := by decide

/-! ## Decoding: each constructor from a word written out from R56 -/

theorem test_decode_hlt : decode [0b00000001] = .ok (.hlt, []) := by rfl
theorem test_decode_ret : decode [0b00010001] = .ok (.ret, []) := by rfl
theorem test_decode_push : decode [0b01000101, 0b00000110] = .ok (.push 6, []) := by rfl
theorem test_decode_pop : decode [0b01000110, 0b00000110] = .ok (.pop 6, []) := by rfl
theorem test_decode_prn : decode [0b01000111, 0b00000110] = .ok (.prn 6, []) := by rfl
theorem test_decode_pra : decode [0b01001000, 0b00000110] = .ok (.pra 6, []) := by rfl
theorem test_decode_call : decode [0b01010000, 0b00000110] = .ok (.call 6, []) := by rfl
theorem test_decode_jmp : decode [0b01010100, 0b00000110] = .ok (.jmp 6, []) := by rfl
theorem test_decode_jeq : decode [0b01010101, 0b00000110] = .ok (.jeq 6, []) := by rfl
theorem test_decode_jne : decode [0b01010110, 0b00000110] = .ok (.jne 6, []) := by rfl
theorem test_decode_jgt : decode [0b01010111, 0b00000110] = .ok (.jgt 6, []) := by rfl
theorem test_decode_jlt : decode [0b01011000, 0b00000110] = .ok (.jlt 6, []) := by rfl
theorem test_decode_jle : decode [0b01011001, 0b00000110] = .ok (.jle 6, []) := by rfl
theorem test_decode_jge : decode [0b01011010, 0b00000110] = .ok (.jge 6, []) := by rfl
theorem test_decode_inc : decode [0b01100101, 0b00000110] = .ok (.inc 6, []) := by rfl
theorem test_decode_dec : decode [0b01100110, 0b00000110] = .ok (.dec 6, []) := by rfl
theorem test_decode_not : decode [0b01101001, 0b00000110] = .ok (.not 6, []) := by rfl
theorem test_decode_ldi : decode [0b10000010, 0b00000101, 0b00000011] = .ok (.ldi 5 3, []) := by rfl
theorem test_decode_add : decode [0b10100000, 0b00000101, 0b00000011] = .ok (.add 5 3, []) := by rfl
theorem test_decode_sub : decode [0b10100001, 0b00000101, 0b00000011] = .ok (.sub 5 3, []) := by rfl
theorem test_decode_mul : decode [0b10100010, 0b00000101, 0b00000011] = .ok (.mul 5 3, []) := by rfl
theorem test_decode_div : decode [0b10100011, 0b00000101, 0b00000011] = .ok (.div 5 3, []) := by rfl
theorem test_decode_mod : decode [0b10100100, 0b00000101, 0b00000011] = .ok (.mod 5 3, []) := by rfl
theorem test_decode_cmp : decode [0b10100111, 0b00000101, 0b00000011] = .ok (.cmp 5 3, []) := by rfl
theorem test_decode_and : decode [0b10101000, 0b00000101, 0b00000011] = .ok (.and 5 3, []) := by rfl
theorem test_decode_or : decode [0b10101010, 0b00000101, 0b00000011] = .ok (.or 5 3, []) := by rfl
theorem test_decode_xor : decode [0b10101011, 0b00000101, 0b00000011] = .ok (.xor 5 3, []) := by rfl
theorem test_decode_shl : decode [0b10101100, 0b00000101, 0b00000011] = .ok (.shl 5 3, []) := by rfl
theorem test_decode_shr : decode [0b10101101, 0b00000101, 0b00000011] = .ok (.shr 5 3, []) := by rfl
theorem test_decode_unlisted : decode [0x83, 0, 1] = .error (.unknownOpcode 0x83) := by rfl
theorem test_decode_same_low_bits : decode [0x41] = .error (.unknownOpcode 0x41) := by rfl
theorem test_decode_missing_operand : decode [0xA0, 0] = .error (.missingOperand 2) := by rfl
theorem test_decodeTableWord_ldi : decodeTableWord 24 0x080082 = some (.ldi 0 8) := by decide
theorem test_decodeTableWord_short : decodeTableWord 8 0xA0 = some (.add 0 0) := by decide
theorem test_withFetchWord_runs : (nextOf (step (State.reset.withFetchWord 24 0x2A0182))).map (fun t => (t.x[1], t.pc)) =
    some (0x2A, 3) := by decide

/-! ## The ALU, from the table of 95_test_vectors.md section 2.1 -/

theorem test_add_FF_01 : after (.add 0 1) 0xFF 0x01 (fun t => (t.x[0], t.x[1], t.fl, t.pc)) =
    some (0x00, 0x01, 0, 3) := by decide
theorem test_add_C8_07 : after (.add 0 1) 0xC8 0x07 (fun t => (t.x[0], t.x[1], t.fl, t.pc)) =
    some (0xCF, 0x07, 0, 3) := by decide
theorem test_sub_03_05 : after (.sub 0 1) 0x03 0x05 (fun t => (t.x[0], t.x[1], t.fl, t.pc)) =
    some (0xFE, 0x05, 0, 3) := by decide
theorem test_sub_01_FF : after (.sub 0 1) 0x01 0xFF (fun t => (t.x[0], t.x[1], t.fl, t.pc)) =
    some (0x02, 0xFF, 0, 3) := by decide
theorem test_mul_C8_07 : after (.mul 0 1) 0xC8 0x07 (fun t => (t.x[0], t.x[1], t.fl, t.pc)) =
    some (0x78, 0x07, 0, 3) := by decide
theorem test_mul_CC_AA : after (.mul 0 1) 0xCC 0xAA (fun t => (t.x[0], t.x[1], t.fl, t.pc)) =
    some (0x78, 0xAA, 0, 3) := by decide
theorem test_div_C8_07 : after (.div 0 1) 0xC8 0x07 (fun t => (t.x[0], t.x[1], t.fl, t.pc)) =
    some (0x1C, 0x07, 0, 3) := by decide
theorem test_div_81_07 : after (.div 0 1) 0x81 0x07 (fun t => (t.x[0], t.x[1], t.fl, t.pc)) =
    some (0x12, 0x07, 0, 3) := by decide
theorem test_mod_CC_AA : after (.mod 0 1) 0xCC 0xAA (fun t => (t.x[0], t.x[1], t.fl, t.pc)) =
    some (0x22, 0xAA, 0, 3) := by decide
theorem test_mod_81_08 : after (.mod 0 1) 0x81 0x08 (fun t => (t.x[0], t.x[1], t.fl, t.pc)) =
    some (0x01, 0x08, 0, 3) := by decide
theorem test_and_CC_AA : after (.and 0 1) 0xCC 0xAA (fun t => (t.x[0], t.x[1], t.fl, t.pc)) =
    some (0x88, 0xAA, 0, 3) := by decide
theorem test_and_FF_01 : after (.and 0 1) 0xFF 0x01 (fun t => (t.x[0], t.x[1], t.fl, t.pc)) =
    some (0x01, 0x01, 0, 3) := by decide
theorem test_or_CC_AA : after (.or 0 1) 0xCC 0xAA (fun t => (t.x[0], t.x[1], t.fl, t.pc)) =
    some (0xEE, 0xAA, 0, 3) := by decide
theorem test_or_C8_07 : after (.or 0 1) 0xC8 0x07 (fun t => (t.x[0], t.x[1], t.fl, t.pc)) =
    some (0xCF, 0x07, 0, 3) := by decide
theorem test_xor_CC_AA : after (.xor 0 1) 0xCC 0xAA (fun t => (t.x[0], t.x[1], t.fl, t.pc)) =
    some (0x66, 0xAA, 0, 3) := by decide
theorem test_xor_81_07 : after (.xor 0 1) 0x81 0x07 (fun t => (t.x[0], t.x[1], t.fl, t.pc)) =
    some (0x86, 0x07, 0, 3) := by decide
theorem test_shl_81_07 : after (.shl 0 1) 0x81 0x07 (fun t => (t.x[0], t.x[1], t.fl, t.pc)) =
    some (0x80, 0x07, 0, 3) := by decide
theorem test_shl_81_08 : after (.shl 0 1) 0x81 0x08 (fun t => (t.x[0], t.x[1], t.fl, t.pc)) =
    some (0x00, 0x08, 0, 3) := by decide
theorem test_shr_81_07 : after (.shr 0 1) 0x81 0x07 (fun t => (t.x[0], t.x[1], t.fl, t.pc)) =
    some (0x01, 0x07, 0, 3) := by decide
theorem test_shr_81_08 : after (.shr 0 1) 0x81 0x08 (fun t => (t.x[0], t.x[1], t.fl, t.pc)) =
    some (0x00, 0x08, 0, 3) := by decide
theorem test_cmp_FF_01 : after (.cmp 0 1) 0xFF 0x01 (fun t => (t.x[0], t.fl, t.pc)) = some (0xFF, 0x04, 3) := by decide
theorem test_cmp_01_FF : after (.cmp 0 1) 0x01 0xFF (fun t => (t.x[0], t.fl, t.pc)) = some (0x01, 0x02, 3) := by decide
theorem test_not_0F : after (.not 0) 0x0F 0 (fun t => (t.x[0], t.fl, t.pc)) = some (0xF0, 0, 2) := by decide
theorem test_inc_FF : after (.inc 0) 0xFF 0 (fun t => (t.x[0], t.fl, t.pc)) = some (0x00, 0, 2) := by decide
theorem test_dec_00 : after (.dec 0) 0x00 0 (fun t => (t.x[0], t.fl, t.pc)) = some (0xFF, 0, 2) := by decide
theorem test_mul_same_register : after (.mul 0 0) 0x0E 0 (fun t => t.x[0]) = some 0xC4 := by decide
theorem test_carry_loop : add8 0xFF 0x01 = 0x00 ∧ add8 0x0F 0x01 = 0x10 := by decide
theorem test_borrow_loop : sub8 0x00 0x01 = 0xFF ∧ sub8 0x03 0x05 = 0xFE := by decide
/-- Section 2.2: the fourth pair of `Add8(FF, 01)` and the last of `Sub8(03, 05)`. -/
theorem test_passes : addPass^[4] (0xFF, 0x01) = (0xF0, 0x10) ∧ subPass^[6] (0x03, 0x05) = (0xFE, 0x00) := by decide

/-! ## The stack (section 2.3) -/

/-- V-STK-1. -/
theorem test_push : (nextOf (exec (.push 2) { (running []).setReg 2 0x5A with pc := 0x10 })).map
    (fun t => (t.mem.load 0xF3, t.sp, t.pc, t.x[2])) = some (0x5A, 0xF3, 0x12, 0x5A) := by decide
/-- V-STK-4 and V-STK-5: the last push that fits, and the first that does not. -/
theorem test_push_boundary :
    (nextOf (exec (.push 0) { withTwo 0xAA 0 with pc := 0x40, sp := 0x43 })).map (fun t => (t.mem.load 0x42, t.sp, t.mode)) =
      some (0xAA, 0x42, .running) ∧
    verdict (exec (.push 0) { withTwo 0xAA 0 with pc := 0x40, sp := 0x42 }) =
      some (.faulted, some ⟨.stackOverflow, 0x40, .none⟩, 0x40) := by decide
/-- V-STK-2. -/
theorem test_pop : (nextOf (exec (.pop 5) { running [(0xF3, 0x5A)] with pc := 0x12, sp := 0xF3 })).map
    (fun t => (t.x[5], t.sp, t.pc, t.mem.load 0xF3)) = some (0x5A, 0xF4, 0x14, 0x5A) := by decide
/-- V-STK-7. -/
theorem test_pop_empty : verdict (exec (.pop 0) (running [])) = some (.faulted, some ⟨.stackUnderflow, 0, .none⟩, 0) := by decide
/-- 41_stack_call.md R102's example. -/
theorem test_call : (nextOf (exec (.call 1) { withTwo 0 0x0B with pc := 0x06 })).map
    (fun t => (t.mem.load 0xF3, t.sp, t.pc)) = some (0x08, 0xF3, 0x0B) := by decide
/-- V-STK-9. -/
theorem test_call_overflow : verdict (exec (.call 4) { (running []).setReg 4 0x10 with pc := 0x50, sp := 0x52 }) =
    some (.faulted, some ⟨.stackOverflow, 0x50, .none⟩, 0x50) := by decide
/-- V-STK-10. -/
theorem test_ret : (nextOf (exec .ret { running [(0xF2, 0x07), (0xF3, 0x08)] with pc := 0x15, sp := 0xF2 })).map
    (fun t => (t.pc, t.sp)) = some (0x07, 0xF3) := by decide
/-- V-STK-8. -/
theorem test_ret_empty : verdict (exec .ret (running [])) = some (.faulted, some ⟨.stackUnderflow, 0, .none⟩, 0) := by decide

/-! ## Control transfer (section 2.4) -/

/-- V-CTL-1. -/
theorem test_hlt : verdict (exec .hlt { running [] with pc := 5 }) = some (.halted, none, 6) := by decide
/-- P10a: HLT in the last cell leaves `pc` 256 and no error. -/
theorem test_hlt_at_top : verdict (step { running [(0xFF, 0x01)] with pc := 0xFF }) = some (.halted, none, 256) := by decide
/-- V-CTL-2. -/
theorem test_jmp : verdict (exec (.jmp 1) { withTwo 0 0x0C with pc := 6 }) = some (.running, none, 0x0C) := by decide

/-- The `pc` after a conditional jump at 0x10 with the target 0x80 in `R0`, for each reachable `fl`. -/
def jumpTable (i : Instr) : List (Option PcWord) :=
  [0x00, 0x01, 0x02, 0x04].map fun f => (nextOf (exec i { withTwo 0x80 0 with pc := 0x10, fl := f })).map fun t => t.pc

theorem test_jeq : jumpTable (.jeq 0) = [some 0x12, some 0x80, some 0x12, some 0x12] := by decide
theorem test_jne : jumpTable (.jne 0) = [some 0x80, some 0x12, some 0x80, some 0x80] := by decide
theorem test_jlt : jumpTable (.jlt 0) = [some 0x12, some 0x12, some 0x80, some 0x12] := by decide
theorem test_jle : jumpTable (.jle 0) = [some 0x12, some 0x80, some 0x80, some 0x12] := by decide
theorem test_jgt : jumpTable (.jgt 0) = [some 0x12, some 0x12, some 0x12, some 0x80] := by decide
theorem test_jge : jumpTable (.jge 0) = [some 0x12, some 0x80, some 0x12, some 0x80] := by decide
/-- V-CTL-7: the register is checked although the jump would not be taken. -/
theorem test_jeq_bad_register : verdict (exec (.jeq 9) { running [] with pc := 9, fl := 2 }) =
    some (.faulted, some ⟨.invalidRegister, 9, .index 9⟩, 9) := by decide

/-! ## Data and output (section 2.5) -/

/-- V-DAT-2 and V-DAT-3. -/
theorem test_ldi : (nextOf (exec (.ldi 7 0xFF) (running []))).map (fun t => (t.x[7], t.sp, t.pc)) = some (0xFF, 0xF4, 3) := by decide
/-- V-DAT-5. -/
theorem test_prn : after (.prn 0) 0xC8 0 (fun t => (t.out, t.pc)) = some ([.num 200], 2) := by decide
/-- V-DAT-6. -/
theorem test_pra : after (.pra 0) 0x41 0 (fun t => (t.out, t.pc)) = some ([.chr 0x41], 2) := by decide

/-! ## Fetching and fatal errors (section 2.6) -/

/-- V-FLT-3. -/
theorem test_unknown_opcode : verdict (step { running [(3, 0x83), (5, 1)] with pc := 3 }) =
    some (.faulted, some ⟨.unknownOpcode, 3, .opcode 0x83⟩, 3) := by decide
/-- V-FLT-5 and V-FLT-6. -/
theorem test_zero_divisor :
    after (.div 0 1) 9 0 (fun t => (t.x[0], t.fault)) = some (9, some ⟨.divisionByZero, 0, .none⟩) ∧
    after (.mod 0 1) 9 0 (fun t => (t.x[0], t.fault)) = some (9, some ⟨.moduloByZero, 0, .none⟩) := by decide
/-- V-FLT-7, V-FLT-8, V-FLT-9: the order of the checks. -/
theorem test_check_order :
    verdict (exec (.div 0 9) (withTwo 9 0)) = some (.faulted, some ⟨.invalidRegister, 0, .index 9⟩, 0) ∧
    verdict (exec (.add 8 9) (running [])) = some (.faulted, some ⟨.invalidRegister, 0, .index 8⟩, 0) ∧
    verdict (exec (.pop 8) (running [])) = some (.faulted, some ⟨.invalidRegister, 0, .index 8⟩, 0) := by decide
/-- V-FLT-10, V-FLT-12, V-FLT-14. -/
theorem test_fetch_at_the_top :
    verdict (step { running [] with pc := 0x100 }) = some (.faulted, some ⟨.outOfBoundsAccess, 256, .address 256⟩, 256) ∧
    verdict (step { running [(0xFE, 0xA0)] with pc := 0xFE }) =
      some (.faulted, some ⟨.outOfBoundsAccess, 254, .address 256⟩, 254) ∧
    verdict (step { running [(0xFF, 0xFF)] with pc := 0xFF }) =
      some (.faulted, some ⟨.unknownOpcode, 255, .opcode 0xFF⟩, 255) := by decide

/-! ## The host's entry points (section 2.7) and the written form (R60) -/

/-- V-HST-5. -/
theorem test_load_twice : ((nextOf (loadProgram [1, 1, 1] State.reset)).bind fun t => nextOf (loadProgram [0x82] t)).map
    (fun t => (t.mem.load 0, t.mem.load 1, t.mem.load 2, t.mode, t.pc)) = some (0x82, 1, 1, .idle, 0) := by decide
/-- V-HST-6: `run()` of a Halted machine is refused. -/
theorem test_run_halted : startRun { State.reset with mode := .halted } = .refused .callNotAllowed := by rfl
/-- The source's example program (P1) under six units of fuel. -/
theorem test_p1 : ((nextOf (loadProgram [0x82, 0, 8, 0x47, 0, 1] State.reset)).bind fun t =>
    match run 6 t with | .ok (some u) => some (u.x[0], u.pc, u.mode, u.out, u.runReturn) | _ => none) =
    some (8, 6, .halted, [.num 8], some .normal) := by decide
/-- R60's forms. -/
theorem test_written : written (.ldi 0 8) = "LDI R0,8" ∧ written (.add 1 7) = "ADD R1,R7" ∧ written .hlt = "HLT" := by decide

/-! ## Witnesses: for each statement with hypotheses, a state and operands that meet them all, at the boundary of each clause -/

theorem witness_illegal_register : 7 < (8 : Byte).toNat ∧ 7 < (0xFF : Byte).toNat := by decide

theorem witness_StepRunsTheDecodedInstruction :
    (image [0x82, 7, 9]).mode = .running ∧
    ∃ rest, decode ((image [0x82, 7, 9]).mem.bytesFrom (image [0x82, 7, 9]).pc.toNat) = .ok (.ldi 7 9, rest) := ⟨rfl, _, rfl⟩
theorem witness_FetchErrorsInOrder :
    (256 ≤ ({ running [] with pc := 256 } : State).pc.toNat) ∧
    ((running []).pc.toNat < 256 ∧ (running []).mem.load 0 ∉ knownOpcodes) ∧
    ((running [(255, 0x45)]).mem.load 255 ∈ knownOpcodes ∧ 64 ≤ ((running [(255, 0x45)]).mem.load 255).toNat) ∧
    ((running [(254, 0x82)]).mem.load 254 ∈ knownOpcodes ∧ 128 ≤ ((running [(254, 0x82)]).mem.load 254).toNat) := by decide
theorem witness_NoStepOutsideRunning : State.reset.mode = .idle := rfl
theorem witness_RunningMachineAlwaysSteps : (running []).mode = .running := rfl
theorem witness_MemReadFollowsItsRule : 256 ≤ 256 ∧ 255 < 256 := by decide
theorem witness_MemWriteChangesOneCell : 256 ≤ 256 ∧ 255 < 256 := by decide
theorem witness_AddFollowsItsRule : ∃ a : Fin 8, ∃ b : Byte, regByte a = 7 ∧ 7 < b.toNat := ⟨7, 8, by decide⟩
theorem witness_DivFollowsItsRule : (withTwo 9 1).x[(1 : Fin 8)] ≠ 0 ∧ (withTwo 9 0).x[(1 : Fin 8)] = 0 := by decide
theorem witness_ModFollowsItsRule : (withTwo 9 255).x[(1 : Fin 8)] ≠ 0 ∧ (withTwo 9 0).x[(1 : Fin 8)] = 0 := by decide
theorem witness_PushFollowsItsRule :
    ¬ Overflows { running [] with pc := 0xF1 } ∧ Overflows { running [] with pc := 0xF2 } := by
  unfold Overflows; decide
theorem witness_PopFollowsItsRule : ({ running [] with sp := 0xF3 } : State).sp ≠ 0xF4 ∧ (running []).sp = 0xF4 := by decide
theorem witness_CallFollowsItsRule :
    ¬ Overflows { running [] with pc := 0x40, sp := 0x43 } ∧ Overflows { running [] with pc := 0x40, sp := 0x42 } := by
  unfold Overflows; decide
theorem witness_RetFollowsItsRule : ({ running [] with sp := 0xF3 } : State).sp ≠ 0xF4 ∧ (running []).sp = 0xF4 := by decide
theorem witness_PushThenPopRestores : ¬ Overflows { running [] with pc := 0xF1 } ∧ (running []).sp ≠ 0xF5 := by
  unfold Overflows; decide
/-- V-STK-6. -/
theorem witness_CallThenRetReturns :
    let s : State := { (running [(6, 0x50), (7, 1), (0x30, 0x11)]).setReg 1 0x30 with pc := 6 }
    s.mode = .running ∧ s.mem.load s.pc.toNat = 0x50 ∧ s.mem.load (s.pc.toNat + 1) = regByte 1 ∧ ¬ Overflows s ∧
      s.sp ≠ 0xF5 ∧ s.mem.load s.x[(1 : Fin 8)].toNat = 0x11 ∧ s.x[(1 : Fin 8)].toNat ≠ (s.sp - 1).toNat := by
  unfold Overflows; decide
theorem witness_SingleBitJumpsFollowTheirRules :
    (bitE 0x01 ∧ ¬ bitE 0x02) ∧ (bitL 0x02 ∧ ¬ bitL 0x04) ∧ (bitG 0x04 ∧ ¬ bitG 0x01) := by
  unfold bitE bitL bitG; decide
theorem witness_CombinedJumpsFollowTheirRules :
    (¬ bitE 0x00 ∧ bitE 0x01) ∧ ((bitL 0x01 ∨ bitE 0x01) ∧ ¬ (bitL 0x04 ∨ bitE 0x04)) ∧
    ((bitG 0x01 ∨ bitE 0x01) ∧ ¬ (bitG 0x02 ∨ bitE 0x02)) := by
  unfold bitE bitL bitG; decide
theorem witness_SubFollowsItsRule : 7 < (8 : Byte).toNat := by decide
theorem witness_MulFollowsItsRule : 7 < (8 : Byte).toNat := by decide
theorem witness_NotFollowsItsRule : 7 < (8 : Byte).toNat := by decide
theorem witness_LdiFollowsItsRule : 7 < (8 : Byte).toNat := by decide
theorem witness_CmpFollowsItsRule : 7 < (8 : Byte).toNat := by decide
theorem witness_JmpFollowsItsRule : 7 < (8 : Byte).toNat := by decide
theorem witness_BitwiseInstructionsFollowTheirRules : 7 < (8 : Byte).toNat := by decide
theorem witness_ShiftsFollowTheirRules : 7 < (8 : Byte).toNat := by decide
theorem witness_IncAndDecFollowTheirRules : 7 < (8 : Byte).toNat := by decide
theorem witness_OutputInstructionsFollowTheirRules : 7 < (8 : Byte).toNat := by decide

/-- A step that completes and one that is fatal, for the statements about a step's next state. -/
theorem witness_completed_step :
    (running []).mode = .running ∧ verdict (exec (.add 0 1) (running [])) = some (.running, none, 3) ∧
    verdict (step (image [0xA0, 0, 1])) = some (.running, none, 3) := by decide
theorem witness_FrameOfEveryInstruction :
    (running []).mode = .running ∧ (verdict (exec (.push 7) (running []))).map (fun v => v.1) = some .running ∧
    (∀ a, Instr.cmp 0 0 ≠ .push a) ∧ destination (.cmp 0 0) ≠ some (regByte 7) ∧ usesStack (.add 0 1) = false := by
  refine ⟨rfl, by decide, by simp, by decide, by decide⟩
theorem witness_PcUpdateOfEveryInstruction : verdict (exec (.jmp 7) (running [])) = some (.running, none, 0) := by decide
/-- `pc` 253 with a three-byte instruction, and `pc` 254 with an untaken jump: the auto-advance reaches 256. -/
theorem witness_AutoAdvanceDoesNotWrap :
    let s : State := { running [(253, 0x82), (254, 1), (255, 0x2A)] with pc := 253 }
    let j : State := { running [(254, 0x55), (255, 7)] with pc := 254 }
    (s.mode = .running ∧ RunsAt s (.ldi 1 0x2A) ∧ verdict (step s) = some (.running, none, 256) ∧
      redirects s.fl (.ldi 1 0x2A) = false) ∧
    (j.mode = .running ∧ RunsAt j (.jeq 7) ∧ verdict (step j) = some (.running, none, 256) ∧
      redirects j.fl (.jeq 7) = false) := by
  refine ⟨⟨rfl, ⟨[], rfl⟩, by decide, by decide⟩, rfl, ⟨[], rfl⟩, by decide, by decide⟩
theorem witness_FlagsAreOnlyForCompareAndJumps :
    usesFlags .hlt = false ∧ (7 < (8 : Byte).toNat ∨ 7 < (0 : Byte).toNat) ∧
    (nextOf (exec (.jeq 0) (running []))).isSome = true := by decide
theorem witness_StackPointerIsOnlyForStackInstructions : usesStack (.cmp 0 0) = false := by decide
/-- PUSH of a non-zero register changes memory. -/
theorem witness_OnlyPushAndCallWriteMemory :
    let s : State := (image [0x45, 0]).setReg 0 1
    s.mode = .running ∧ (nextOf (step s)).map (fun t => decide (t.mem = s.mem)) = some false := by decide
/-- A two-byte instruction that stores, and the third byte of one that does not. -/
theorem witness_StepsKeepOwnBytesAndTopCells :
    ((nextOf (step (image [0x45, 0]))).isSome = true ∧ (image [0x45, 0]).sp.toNat ≤ 0xF4 ∧
      RunsAt (image [0x45, 0]) (.push 0) ∧ 1 < (encode (.push 0)).length) ∧
    ((nextOf (step (image [0x82, 1, 9]))).isSome = true ∧ RunsAt (image [0x82, 1, 9]) (.ldi 1 9) ∧
      2 < (encode (.ldi 1 9)).length) := by
  refine ⟨⟨by decide, by decide, ⟨_, rfl⟩, by decide⟩, by decide, ⟨_, rfl⟩, by decide⟩
theorem witness_HaltedOnlyByHlt : verdict (step (image [0x01])) = some (.halted, none, 1) := by decide
theorem witness_FatalErrorsArePrecise : verdict (step (running [])) =
    some (.faulted, some ⟨.unknownOpcode, 0, .opcode 0⟩, 0) := by decide
/-- One step for each kind of fatal error, with its record. -/
theorem witness_FatalErrorsHaveTheirCause :
    [running [], { running [] with pc := 256 }, { running [(0xF2, 0x45)] with pc := 0xF2 }, image [0x11],
      image [0xA3, 0, 1], image [0xA4, 0, 1], image [0x47, 8]].map (fun s => (verdict (step s)).map fun v => v.2.1) =
    [some (some ⟨.unknownOpcode, 0, .opcode 0⟩), some (some ⟨.outOfBoundsAccess, 256, .address 256⟩),
      some (some ⟨.stackOverflow, 0xF2, .none⟩), some (some ⟨.stackUnderflow, 0, .none⟩),
      some (some ⟨.divisionByZero, 0, .none⟩), some (some ⟨.moduloByZero, 0, .none⟩),
      some (some ⟨.invalidRegister, 0, .index 8⟩)] := by decide

/-- The invariant holds of a small Running state at the top of memory. -/
theorem witness_inv_running_at_top : Inv { running [(0xFF, 0xA0)] with pc := 0xFF } where
  memory := by decide
  spLow := by decide
  spHigh := by decide
  flags := by decide
  pcRange := by decide
  faulted := by decide
  record := by intro r h; cases h
  idlePc := by decide
theorem witness_OutOfRangeAddressIsAlways256 :
    verdict (step { running [(0xFF, 0xA0)] with pc := 0xFF }) =
      some (.faulted, some ⟨.outOfBoundsAccess, 255, .address 256⟩, 255) := by decide
theorem witness_StepKeepsTheInvariant : (nextOf (step { running [(0xFF, 0xA0)] with pc := 0xFF })).isSome = true := by decide
/-- The invariant holds of the Idle machine the host's calls act on. -/
theorem witness_inv_idle : Inv State.reset where
  memory := by decide
  spLow := by decide
  spHigh := by decide
  flags := by decide
  pcRange := by decide
  faulted := by decide
  record := by intro r h; cases h
  idlePc := by decide
theorem witness_HostCallsKeepTheInvariant :
    (nextOf (loadProgram [1] State.reset)).isSome = true ∧ (nextOf (startRun State.reset)).isSome = true := by decide
theorem witness_LoadProgramFollowsItsRule :
    State.reset.mode = .idle ∧ (List.replicate 256 (1 : Byte)).length ≤ 256 ∧ 256 < (List.replicate 257 (1 : Byte)).length ∧
    (running []).mode ≠ .idle := by
  refine ⟨rfl, Nat.le_of_eq List.length_replicate, Nat.lt_of_lt_of_eq (Nat.lt_succ_self 256) List.length_replicate.symm, by decide⟩
theorem witness_RunStartsOnlyWhenIdle : State.reset.mode = .idle ∧ (running []).mode ≠ .idle := by decide
/-- A run that Halts and one that Faults, each from an Idle state. -/
theorem witness_EndedRunReturnsItsManner :
    (match run 1 { State.reset with mem := [(0, 0x01)] } with | .ok (some t) => some t.mode | _ => none) = some .halted ∧
    (match run 1 State.reset with | .ok (some t) => some t.mode | _ => none) = some .faulted := by decide
theorem witness_MoreFuelDoesNotChangeARun :
    (match run 1 State.reset with | .ok (some t) => some t.pc | _ => none) = some 0 := by decide
theorem witness_IntrospectionFollowsItsRule : State.reset.mode ≠ .running ∧ (running []).mode = .running ∧ 8 ≤ 8 ∧ 255 < 256 := by decide
theorem witness_LoadedProgramStartsAtZero : [(0x01 : Byte)].length ≤ 256 ∧ decode [0x01] = .ok (.hlt, []) := ⟨by decide, rfl⟩

end Sys2Proof.Tests
end

/-! Proofs about memory (20_memory.md): the two accesses with their range check, R31 and R32. -/

namespace Sys2Proof.MemoryProofs

open Machine Claims

/-- The claims' description of R141 is what the model's `raise` answers. -/
theorem raise_eq_next_afterRaise (kind : FatalKind) (info : FaultInfo) (s : State) :
    raise kind info s = .next (afterRaise s kind info) := rfl

/-- Settles O10, by the range check's two outcomes. -/
theorem memReadFollowsItsRule : Obligations.MemReadFollowsItsRule := by
  intro addr s k
  constructor
  · intro outOfRange
    rw [memRead_outOfRange outOfRange, raise_eq_next_afterRaise]
  · intro inRange
    exact memRead_inRange inRange s k

/-- Settles O11, by the range check's two outcomes; in range the new memory is the one `Memory.store` gives,
which differs from the old one at the written cell alone. -/
theorem memWriteChangesOneCell : Obligations.MemWriteChangesOneCell := by
  intro addr v s k
  constructor
  · intro outOfRange
    rw [memWrite_outOfRange outOfRange, raise_eq_next_afterRaise]
  · intro inRange
    exact ⟨s.mem.store addr v, memWrite_inRange inRange v s k, fun b => Memory.load_store s.mem addr b v⟩

end Sys2Proof.MemoryProofs

/-! Proofs about the encoding (30_encoding.md): decode against encode, the opcode map, the written form. -/

namespace Sys2Proof.EncodingProofs

open Machine Claims

/-! ## Decode and encode -/

/-- An operation keeps its operands: of two bytes, the first as many as its opcode announces (R53). -/
theorem operandBytes_build (o : Op) (byte1 byte2 : Byte) :
    (o.build byte1 byte2).operandBytes = [byte1, byte2].take (operandCount o.byte) := by cases o <;> rfl

/-- The operation an instruction was built from is its operation. -/
theorem op_build (o : Op) (byte1 byte2 : Byte) : (o.build byte1 byte2).op = o := by cases o <;> rfl

/-- At most two bytes, padded to two and cut to their number again, are themselves. -/
theorem take_padded {bs : List Byte} (h : bs.length ≤ 2) : [bs.getD 0 0, bs.getD 1 0].take bs.length = bs := by
  match bs, h with
  | [], _ | [_], _ | [_, _], _ => rfl

/-- An operation applied to as many operand bytes as its opcode announces encodes to its byte and those bytes. -/
theorem encode_buildFrom (o : Op) {bs : List Byte} (h : bs.length = operandCount o.byte) :
    encode (o.buildFrom bs) = o.byte :: bs := by
  have hpad := take_padded (h ▸ o.operandCount_le_two)
  rw [encode, Op.buildFrom, op_build, operandBytes_build, ← h, hpad]

/-- What follows an encoded instruction is left over, and the instruction is read back. -/
theorem decode_encode_append (i : Instr) (rest : List Byte) : decode (encode i ++ rest) = .ok (i, rest) := by
  have ht := takeOperands_append i.operandBytes rest 1
  rw [i.operandBytes_length] at ht
  simp [encode, decode, ht]

/-- Bytes that decode are the encoding of what they decode to, then what is left over. -/
theorem eq_encode_append_of_decode {bytes : List Byte} {i : Instr} {rest : List Byte}
    (h : decode bytes = .ok (i, rest)) : bytes = encode i ++ rest := by
  cases bytes with
  | nil => simp [decode] at h
  | cons opcode bytes =>
    simp only [decode] at h
    split at h
    · simp at h
    · next o ho =>
      split at h
      · next bs rest' ht =>
        obtain rfl := Op.byte_of_ofByte ho
        obtain ⟨rfl, hlen⟩ := takeOperands_ok ht
        simp only [Except.ok.injEq, Prod.mk.injEq] at h
        obtain ⟨rfl, rfl⟩ := h
        simp [encode_buildFrom o hlen]
      · simp at h

/-- Settles O1: decoding reads back what was encoded, and whatever decodes was encoded so. -/
theorem decodeAndEncodeAgree : Obligations.DecodeAndEncodeAgree := by
  intro bytes i rest
  constructor
  · exact eq_encode_append_of_decode
  · rintro rfl
    exact decode_encode_append i rest

/-! ## The opcode map -/

/-- The bytes written out in the rows are those of the operations, in the same order. -/
theorem knownOpcodes_eq : knownOpcodes = Op.all.map Op.byte := by decide

/-- The lookup finds exactly the bytes written out (R56, R58). -/
theorem ofByte_isSome_iff (b : Byte) : (Op.ofByte b).isSome = true ↔ b ∈ knownOpcodes := by
  rw [knownOpcodes_eq, Op.ofByte, List.find?_isSome, List.mem_map]
  simp only [beq_iff_eq]

/-- The lookup misses exactly the other bytes. -/
theorem ofByte_eq_none_iff (b : Byte) : Op.ofByte b = none ↔ b ∉ knownOpcodes := by
  rw [← ofByte_isSome_iff, Option.not_isSome_iff_eq_none]

/-- The bytes the encoder gives are those written out from R53 and R56. -/
theorem encode_eq_wordOf (i : Instr) : encode i = wordOf i := by cases i <;> rfl

/-- Settles O2: the map from the rows, the bytes of an instruction from decoding its encoding. -/
theorem exactlyTheListedOpcodesAreRecognised : Obligations.ExactlyTheListedOpcodesAreRecognised := by
  refine ⟨by decide, ofByte_isSome_iff, by decide, by decide, fun i rest => ⟨encode_eq_wordOf i, ?_⟩⟩
  rw [← encode_eq_wordOf]
  exact decode_encode_append i rest

/-- The top two bits of a byte as a number (R51). -/
theorem operandCount_eq (b : Byte) : operandCount b = b.toNat / 64 := by
  have := b.isLt
  simp only [operandCount, BitVec.extractLsb'_toNat, Nat.shiftRight_eq_div_pow]
  omega

/-- Settles O3, from the operand count of each operation. -/
theorem topTwoBitsGiveTheLength : Obligations.TopTwoBitsGiveTheLength := by
  intro i
  have hle := i.op.operandCount_le_two
  have hlen := i.operandBytes_length
  rw [operandCount_eq] at hle hlen
  exact ⟨i.op.byte, i.operandBytes, rfl, hlen, by omega, operandCount_eq _⟩

/-- Settles O4: each word is the encoding of its instruction, and byte 0 is none of the 29. -/
theorem wordsOfTheSpecDecode : Obligations.WordsOfTheSpecDecode :=
  ⟨decode_encode_append (.ldi 0 8) [], decode_encode_append (.prn 0) [], decode_encode_append .hlt [],
    decode_encode_append (.div 0 1) [], decode_encode_append (.call 1) [], rfl⟩

/-! ## The written form -/

/-- Every row's mnemonic names its operation and is how it is written (R56, R60). -/
theorem operationNamed_row :
    ∀ row ∈ opcodeRows, operationNamed row.2.1 = some row.2.2 ∧ mnemonicOf row.2.2 = row.2.1 := by decide

/-- Every operation has a row. -/
theorem exists_row (o : Op) : ∃ row ∈ opcodeRows, row.2.2 = o := by cases o <;> decide

/-- Settles O5, from the rows: each operation has one, and a row's mnemonic is its operation's. -/
theorem mnemonicsNameTheirOperations : Obligations.MnemonicsNameTheirOperations := by
  refine ⟨operationNamed_row, exists_row, fun o => ?_, rfl⟩
  obtain ⟨row, hrow, rfl⟩ := exists_row o
  obtain ⟨hnamed, hwritten⟩ := operationNamed_row row hrow
  rw [hwritten, hnamed]

end Sys2Proof.EncodingProofs

/-! Proofs about the ALU's algorithms (40_alu.md section 1): the carry loop, the borrow loop, shift-and-add. -/

namespace Sys2Proof.AluLoopProofs

open Machine Claims

/-! ## One pass: the number kept -/

/-- A byte is what it has in common with another and what it has alone. -/
theorem and_add_and_not (a b : Byte) : (a &&& b) + (a &&& ~~~b) = a := by
  rw [BitVec.add_eq_or_of_and_eq_zero]
  · ext i hi
    cases h : b[i] <;> simp [h]
  · ext i hi
    cases h : b[i] <;> simp [h]

/-- The bits in which two bytes differ are those each has alone. -/
theorem xor_eq_add_alone (a b : Byte) : a ^^^ b = (a &&& ~~~b) + (b &&& ~~~a) := by
  rw [BitVec.add_eq_or_of_and_eq_zero]
  · ext i hi
    cases ha : a[i] <;> cases hb : b[i] <;> simp [ha, hb]
  · ext i hi
    cases h : b[i] <;> simp [h]

/-- A left shift multiplies by a power of two, within the byte. -/
theorem shiftLeft_eq_mul (a : Byte) (i : Nat) : a <<< i = a * BitVec.ofNat 8 (2 ^ i) := by
  rw [BitVec.shiftLeft_eq_mul_twoPow]
  exact congrArg (a * ·) (BitVec.eq_of_toNat_eq (by rw [BitVec.toNat_twoPow, BitVec.toNat_ofNat]))

theorem shiftLeft_one_eq_add (a : Byte) : a <<< 1 = a + a := by
  rw [shiftLeft_eq_mul, ← mul_two]
  rfl

/-- A carry pass keeps the sum of its pair (R71). -/
theorem addPass_sum (p : Byte × Byte) : (addPass p).1 + (addPass p).2 = p.1 + p.2 := by
  obtain ⟨a, b⟩ := p
  have ha := and_add_and_not a b
  have hb := and_add_and_not b a
  rw [BitVec.and_comm b a] at hb
  simp only [addPass, shiftLeft_one_eq_add, xor_eq_add_alone]
  linear_combination ha + hb

/-- A borrow pass keeps the difference of its pair (R72). -/
theorem subPass_diff (p : Byte × Byte) : (subPass p).1 - (subPass p).2 = p.1 - p.2 := by
  obtain ⟨a, b⟩ := p
  have ha := and_add_and_not a b
  have hb := and_add_and_not b a
  rw [BitVec.and_comm b a] at hb
  have hnot : a ^^^ 0xFF = ~~~a := BitVec.xor_allOnes
  simp only [subPass, shiftLeft_one_eq_add, xor_eq_add_alone a b, hnot, BitVec.and_comm (~~~a) b]
  linear_combination ha - hb

/-! ## Eight passes: nothing left to carry -/

/-- The low `n` bits of a byte are clear. -/
def LowClear (n : Nat) (b : Byte) : Prop := ∀ j < n, b.getLsbD j = false

theorem lowClear_zero (b : Byte) : LowClear 0 b := fun _ hj => absurd hj (Nat.not_lt_zero _)

/-- A byte whose eight low bits are clear is 0. -/
theorem eq_zero_of_lowClear {b : Byte} (h : LowClear 8 b) : b = 0 :=
  BitVec.eq_of_getLsbD_eq fun j hj => by rw [h j hj]; simp

/-- A mask of a byte, shifted left by one, has one low bit more clear than the byte. -/
theorem lowClear_shift_and {n : Nat} {b : Byte} (h : LowClear n b) (c : Byte) : LowClear (n + 1) ((c &&& b) <<< 1) := by
  intro j hj
  cases j with
  | zero => simp
  | succ j => simp [h j (by omega)]

/-- When every pass clears one low bit more of the second byte, eight passes clear all of it (R71, R72). -/
theorem iterate_eight_snd {pass : Byte × Byte → Byte × Byte}
    (hpass : ∀ n p, LowClear n p.2 → LowClear (n + 1) (pass p).2) (p : Byte × Byte) : (pass^[8] p).2 = 0 := by
  have hlow (n : Nat) : LowClear n (pass^[n] p).2 := by
    induction n with
    | zero => exact lowClear_zero _
    | succ n ih =>
      rw [Function.iterate_succ_apply']
      exact hpass n _ ih
  exact eq_zero_of_lowClear (hlow 8)

theorem addPass_iterate_eight_snd (p : Byte × Byte) : (addPass^[8] p).2 = 0 :=
  iterate_eight_snd (fun _ p h => lowClear_shift_and h p.1) p

theorem subPass_iterate_eight_snd (p : Byte × Byte) : (subPass^[8] p).2 = 0 :=
  iterate_eight_snd (fun _ p h => lowClear_shift_and h (p.1 ^^^ 0xFF)) p

/-- Settles O15: each pass moves the carry or borrow vector up by one bit, and a byte has eight. -/
theorem loopsEndWithinEightPasses : Obligations.LoopsEndWithinEightPasses := fun p =>
  ⟨addPass_iterate_eight_snd p, subPass_iterate_eight_snd p⟩

/-! ## The loops -/

/-- Stopping when nothing is left makes no difference to a pass that then changes nothing. -/
theorem carryLoop_eq_iterate {pass : Byte × Byte → Byte × Byte} (hdone : ∀ a, pass (a, 0) = (a, 0)) (n : Nat)
    (p : Byte × Byte) : carryLoop pass n p = pass^[n] p := by
  induction n generalizing p with
  | zero => rfl
  | succ n ih =>
    rw [carryLoop, Function.iterate_succ_apply, ih]
    split
    · next h =>
      obtain ⟨a, b⟩ := p
      obtain rfl : b = 0 := h
      rw [hdone, Function.iterate_fixed (hdone a)]
    · rfl

/-- `Add8` is the sum of the word type (R71). -/
theorem add8_eq (a b : Byte) : add8 a b = a + b := by
  have hsum := congrFun (Function.iterate_invariant (g := fun p => p.1 + p.2) (funext addPass_sum) 8) (a, b)
  simp only [Function.comp_apply, addPass_iterate_eight_snd, BitVec.ofNat_eq_ofNat, BitVec.add_zero] at hsum
  rw [add8, carryLoop_eq_iterate (by simp [addPass]), hsum]

/-- `Sub8` is the difference of the word type (R72). -/
theorem sub8_eq (a b : Byte) : sub8 a b = a - b := by
  have hdiff := congrFun (Function.iterate_invariant (g := fun p => p.1 - p.2) (funext subPass_diff) 8) (a, b)
  simp only [Function.comp_apply, subPass_iterate_eight_snd, BitVec.ofNat_eq_ofNat, BitVec.sub_zero] at hdiff
  rw [sub8, carryLoop_eq_iterate (by simp [subPass]), hdiff]

/-- Settles O12: eight passes keep the sum and leave no carry. -/
theorem carryLoopAddsModulo256 : Obligations.CarryLoopAddsModulo256 := fun a b => by
  rw [add8_eq, BitVec.toNat_add]

/-- Settles O13: eight passes keep the difference and leave no borrow. -/
theorem borrowLoopSubtractsModulo256 : Obligations.BorrowLoopSubtractsModulo256 := fun a b => by
  rw [sub8_eq, BitVec.toNat_sub]
  omega

/-! ## Shift-and-add -/

/-- A number from bit `i` up is its bit `i` and what it is from bit `i + 1` up. -/
theorem div_mul_two_pow (n i : Nat) :
    n / 2 ^ i * 2 ^ i = (if n.testBit i then 2 ^ i else 0) + n / 2 ^ (i + 1) * 2 ^ (i + 1) := by
  have hbit : n / 2 ^ i % 2 = if n.testBit i then 1 else 0 := by
    rw [Nat.testBit_eq_decide_div_mod_eq]
    split
    · next h => simpa using h
    · next h => simpa using h
  have hdiv := Nat.div_add_mod (n / 2 ^ i) 2
  rw [Nat.div_div_eq_div_mul, ← pow_succ, hbit] at hdiv
  rw [← hdiv, pow_succ]
  split <;> ring

/-- The loop from bit `i` on adds the product with the multiplier's bits from `i` up (R73). -/
theorem mulLoop_eq (a b : Byte) {n i : Nat} (h : n + i = 8) (acc : Byte) :
    mulLoop a b n i acc = acc + a * BitVec.ofNat 8 (b.toNat / 2 ^ i * 2 ^ i) := by
  induction n generalizing i acc with
  | zero =>
    obtain rfl : i = 8 := by omega
    rw [Nat.div_eq_of_lt b.isLt]
    simp [mulLoop]
  | succ n ih =>
    rw [mulLoop, ih (by omega), div_mul_two_pow _ i, BitVec.ofNat_add, BitVec.getLsbD]
    split
    · rw [add8_eq, shiftLeft_eq_mul]
      ring
    · simp

/-- `Mul8` is the product of the word type (R73). -/
theorem mul8_eq (a b : Byte) : mul8 a b = a * b := by
  rw [mul8, mulLoop_eq a b rfl]
  simp

/-- Settles O14: each pass adds the multiplicand shifted to the multiplier's bit. -/
theorem shiftAndAddMultipliesModulo256 : Obligations.ShiftAndAddMultipliesModulo256 := fun a b => by
  rw [mul8_eq, BitVec.toNat_mul]

end Sys2Proof.AluLoopProofs

/-! Proofs of each instruction's rule (40_alu.md to 43_data_io.md), one lemma per operand form. -/

namespace Sys2Proof.InstructionProofs

open Machine Claims AluLoopProofs

/-! ## What each instruction is, in the words of its operand form -/

section ExecForms

variable (a b : Byte) (s : State)

theorem exec_hlt : exec .hlt s = .next (State.advance { s with mode := .halted } 1) := rfl
theorem exec_ret : exec .ret s = popByte s fun target t => .next (t.jumpTo target) := rfl
theorem exec_push : exec (.push a) s = withReg a s fun ra => pushByte (s.reg ra) s fun t => .next (t.advance 2) := rfl
theorem exec_pop : exec (.pop a) s = withReg a s fun ra => popByte s fun v t => .next ((t.setReg ra v).advance 2) := rfl
theorem exec_prn : exec (.prn a) s = printReg .num a s := rfl
theorem exec_pra : exec (.pra a) s = printReg .chr a s := rfl
theorem exec_call : exec (.call a) s =
    withReg a s fun ra => pushByte (returnAddress s) s fun t => .next (t.jumpTo (s.reg ra)) := rfl
theorem exec_jmp : exec (.jmp a) s = withReg a s fun ra => .next (s.jumpTo (s.reg ra)) := rfl
theorem exec_jeq : exec (.jeq a) s = condJump condEq a s := rfl
theorem exec_jne : exec (.jne a) s = condJump condNe a s := rfl
theorem exec_jgt : exec (.jgt a) s = condJump condGt a s := rfl
theorem exec_jlt : exec (.jlt a) s = condJump condLt a s := rfl
theorem exec_jle : exec (.jle a) s = condJump condLe a s := rfl
theorem exec_jge : exec (.jge a) s = condJump condGe a s := rfl
theorem exec_inc : exec (.inc a) s = unaryAlu (fun va => va + 1) a s := rfl
theorem exec_dec : exec (.dec a) s = unaryAlu (fun va => va - 1) a s := rfl
theorem exec_not : exec (.not a) s = unaryAlu (fun va => va ^^^ 0xFF) a s := rfl
theorem exec_ldi : exec (.ldi a b) s = withReg a s fun ra => .next ((s.setReg ra b).advance 3) := rfl
theorem exec_add : exec (.add a b) s = binaryAlu add8 a b s := rfl
theorem exec_sub : exec (.sub a b) s = binaryAlu sub8 a b s := rfl
theorem exec_mul : exec (.mul a b) s = binaryAlu mul8 a b s := rfl
theorem exec_div : exec (.div a b) s = divideAlu .divisionByZero div8 a b s := rfl
theorem exec_mod : exec (.mod a b) s = divideAlu .moduloByZero mod8 a b s := rfl
theorem exec_cmp : exec (.cmp a b) s = withRegs a b s fun ra rb =>
    .next (State.advance { s with fl := compareFlags (s.reg ra) (s.reg rb) } 3) := rfl
theorem exec_and : exec (.and a b) s = binaryAlu (fun va vb => va &&& vb) a b s := rfl
theorem exec_or : exec (.or a b) s = binaryAlu (fun va vb => va ||| vb) a b s := rfl
theorem exec_xor : exec (.xor a b) s = binaryAlu (fun va vb => va ^^^ vb) a b s := rfl
theorem exec_shl : exec (.shl a b) s = binaryAlu shl8 a b s := rfl
theorem exec_shr : exec (.shr a b) s = binaryAlu shr8 a b s := rfl

end ExecForms

/-! ## The operand forms on legal and on illegal register bytes -/

/-- The byte that names register `i` goes on with `i`. -/
@[simp] theorem withReg_regByte (i : Fin 8) (s : State) (k : Fin 8 → Answer) : withReg (regByte i) s k = k i :=
  withReg_ofNat i s k

@[simp] theorem withRegs_regByte (i j : Fin 8) (s : State) (k : Fin 8 → Fin 8 → Answer) :
    withRegs (regByte i) (regByte j) s k = k i j := by simp [withRegs]

/-- An instruction that checks its one register byte first refuses a bad one (R54, R111). -/
theorem refusesBadRegister_of_withReg {i : Byte → Instr} {k : State → Fin 8 → Answer}
    (hi : ∀ a s, exec (i a) s = withReg a s (k s)) : RefusesBadRegister i := fun a s ha => by
  rw [hi, withReg_illegal ha]
  rfl

/-- An instruction that checks its two register bytes first refuses bad ones, in operand order (R111). -/
theorem refusesBadRegisters_of_withRegs {i : Byte → Byte → Instr} {k : State → Fin 8 → Fin 8 → Answer}
    (hi : ∀ a b s, exec (i a b) s = withRegs a b s (k s)) : RefusesBadRegisters i := by
  constructor
  · intro a b s ha
    rw [hi, withRegs, withReg_illegal ha]
    rfl
  · intro a b s hb
    rw [hi, withRegs, withReg_regByte, withReg_illegal hb]
    rfl

/-- The rule of an instruction of the one-register ALU form, from the function it computes. -/
theorem unaryAlu_rule {i : Byte → Instr} {f g : Byte → Byte} (hi : ∀ a s, exec (i a) s = unaryAlu f a s)
    (hfg : ∀ va, f va = g va) : ReplacesRegister i g ∧ RefusesBadRegister i := by
  refine ⟨fun a s => ?_, refusesBadRegister_of_withReg hi⟩
  rw [hi, unaryAlu, withReg_regByte, hfg]
  rfl

/-- The rule of an instruction of the two-register ALU form, from the function it computes. -/
theorem binaryAlu_rule {i : Byte → Byte → Instr} {f g : Byte → Byte → Byte}
    (hi : ∀ a b s, exec (i a b) s = binaryAlu f a b s) (hfg : ∀ va vb, f va vb = g va vb) :
    ReplacesFirstRegister i g ∧ RefusesBadRegisters i := by
  refine ⟨fun a b s => ?_, refusesBadRegisters_of_withRegs hi⟩
  rw [hi, binaryAlu, withRegs_regByte, hfg]
  rfl

/-- The rule of a division form, from the function it computes for a non-zero divisor. -/
theorem divideAlu_rule {i : Byte → Byte → Instr} {kind : FatalKind} {f : Byte → Byte → Byte} {g : Nat → Nat → Nat}
    (hi : ∀ a b s, exec (i a b) s = divideAlu kind f a b s)
    (hfg : ∀ va vb, f va vb = BitVec.ofNat 8 (g va.toNat vb.toNat)) :
    DividesOrRaises i kind g ∧ RefusesBadRegisters i := by
  refine ⟨⟨fun a b s hb => ?_, fun a b s hb => ?_⟩, refusesBadRegisters_of_withRegs hi⟩
  · rw [hi, divideAlu, withRegs_regByte, if_neg (show s.reg b ≠ 0 from hb), hfg]
    rfl
  · rw [hi, divideAlu, withRegs_regByte, if_pos (show s.reg b = 0 from hb)]
    rfl

/-- The rule of a conditional jump, from the condition it tests. -/
theorem condJump_rule {i : Byte → Instr} {cond : Byte → Bool} {P : Byte → Prop}
    (hi : ∀ a s, exec (i a) s = condJump cond a s) (hP : ∀ fl, cond fl = true ↔ P fl) :
    JumpsWhen i P ∧ RefusesBadRegister i := by
  refine ⟨⟨fun a s h => ?_, fun a s h => ?_⟩, refusesBadRegister_of_withReg hi⟩
  · rw [hi, condJump, withReg_regByte, if_pos ((hP _).2 h)]
    rfl
  · rw [hi, condJump, withReg_regByte, if_neg (mt (hP _).1 h)]
    rfl

/-! ## The ALU instructions -/

/-- Settles O16: `Add8` is the sum modulo 256. -/
theorem addFollowsItsRule : Obligations.AddFollowsItsRule :=
  binaryAlu_rule exec_add fun va vb => BitVec.eq_of_toNat_eq (by
    rw [carryLoopAddsModulo256, BitVec.toNat_ofNat, Nat.mod_mod])

/-- Settles O17: `Sub8` is the difference modulo 256. -/
theorem subFollowsItsRule : Obligations.SubFollowsItsRule :=
  binaryAlu_rule exec_sub fun va vb => BitVec.eq_of_toNat_eq (by
    rw [sub8_eq, BitVec.toNat_sub, BitVec.toNat_ofNat]
    omega)

/-- Settles O18: `Mul8` is the product modulo 256. -/
theorem mulFollowsItsRule : Obligations.MulFollowsItsRule :=
  binaryAlu_rule exec_mul fun va vb => BitVec.eq_of_toNat_eq (by
    rw [shiftAndAddMultipliesModulo256, BitVec.toNat_ofNat, Nat.mod_mod])

/-- Settles O19: the unsigned division of words is the floor quotient of their numbers. -/
theorem divFollowsItsRule : Obligations.DivFollowsItsRule :=
  divideAlu_rule exec_div fun _ _ => BitVec.udiv_def

/-- Settles O20: the unsigned remainder of words is the remainder of their numbers. -/
theorem modFollowsItsRule : Obligations.ModFollowsItsRule :=
  divideAlu_rule exec_mod fun _ _ => BitVec.umod_def

/-- A word is the word of its number. -/
theorem ofNat_toNat_self (v : Byte) : BitVec.ofNat 8 v.toNat = v := by simp

theorem and_eq_ofNat_land (va vb : Byte) : va &&& vb = BitVec.ofNat 8 (Nat.land va.toNat vb.toNat) :=
  (ofNat_toNat_self (va &&& vb)).symm

theorem or_eq_ofNat_lor (va vb : Byte) : va ||| vb = BitVec.ofNat 8 (Nat.lor va.toNat vb.toNat) :=
  (ofNat_toNat_self (va ||| vb)).symm

theorem xor_eq_ofNat_xor (va vb : Byte) : va ^^^ vb = BitVec.ofNat 8 (Nat.xor va.toNat vb.toNat) :=
  (ofNat_toNat_self (va ^^^ vb)).symm

/-- Settles O21: the bit operations of words are those of their numbers. -/
theorem bitwiseInstructionsFollowTheirRules : Obligations.BitwiseInstructionsFollowTheirRules :=
  have hand := binaryAlu_rule exec_and and_eq_ofNat_land
  have hor := binaryAlu_rule exec_or or_eq_ofNat_lor
  have hxor := binaryAlu_rule exec_xor xor_eq_ofNat_xor
  ⟨hand.1, hand.2, hor.1, hor.2, hxor⟩

/-- Settles O22: the masked complement is what is missing to 255. -/
theorem notFollowsItsRule : Obligations.NotFollowsItsRule :=
  unaryAlu_rule exec_not fun va => BitVec.eq_of_toNat_eq (by
    have hnot : va ^^^ 0xFF = ~~~va := BitVec.xor_allOnes
    rw [hnot, BitVec.toNat_not, BitVec.toNat_ofNat]
    omega)

theorem shl8_eq (va n : Byte) :
    shl8 va n = BitVec.ofNat 8 (if 8 ≤ n.toNat then 0 else (va.toNat * 2 ^ n.toNat) % 256) := by
  unfold shl8
  split
  · rfl
  · exact BitVec.eq_of_toNat_eq (by
      rw [BitVec.toNat_shiftLeft, Nat.shiftLeft_eq, BitVec.toNat_ofNat, Nat.mod_mod])

theorem shr8_eq (va n : Byte) :
    shr8 va n = BitVec.ofNat 8 (if 8 ≤ n.toNat then 0 else va.toNat / 2 ^ n.toNat) := by
  unfold shr8
  split
  · rfl
  · rw [← Nat.shiftRight_eq_div_pow, ← BitVec.toNat_ushiftRight, BitVec.ofNat_toNat, BitVec.setWidth_eq]

/-- Settles O23: a shift by fewer than eight places is a product with a power of two, or a quotient by one. -/
theorem shiftsFollowTheirRules : Obligations.ShiftsFollowTheirRules :=
  have hshl := binaryAlu_rule exec_shl shl8_eq
  have hshr := binaryAlu_rule exec_shr shr8_eq
  ⟨hshl.1, hshl.2, hshr⟩

/-- Settles O24: one more and one less are sums modulo 256, with 1 and with 255. -/
theorem incAndDecFollowTheirRules : Obligations.IncAndDecFollowTheirRules :=
  have hinc := unaryAlu_rule exec_inc fun va =>
    show va + 1 = BitVec.ofNat 8 ((va.toNat + 1) % 256) by bv_omega
  have hdec := unaryAlu_rule exec_dec fun va =>
    show va - 1 = BitVec.ofNat 8 ((va.toNat + 255) % 256) by bv_omega
  ⟨hinc.1, hinc.2, hdec⟩

/-- The byte CMP writes, by the order of the two numbers (R87). -/
theorem compareFlags_eq (va vb : Byte) :
    compareFlags va vb = if va.toNat > vb.toNat then 0x04 else if va.toNat = vb.toNat then 0x01 else 0x02 := by
  simp only [compareFlags, gt_iff_lt, BitVec.toNat_inj]

/-- Settles O25: CMP writes the comparison's byte to `fl` and nothing else. -/
theorem cmpFollowsItsRule : Obligations.CmpFollowsItsRule := by
  refine ⟨fun a b s => ?_, refusesBadRegisters_of_withRegs exec_cmp⟩
  rw [exec_cmp, withRegs_regByte, compareFlags_eq]
  rfl

/-! ## The stack instructions -/

/-- The statements' overflow check is the model's (R100). -/
theorem overflows_iff_stackFull (s : State) : Overflows s ↔ s.stackFull = true := by
  rw [State.stackFull_iff, Overflows]
  omega

/-- A push that overflows is fatal, with nothing written (R100). -/
theorem pushByte_of_overflows {s : State} (h : Overflows s) (v : Byte) (k : State → Answer) :
    pushByte v s k = .next (afterRaise s .stackOverflow .none) := by
  obtain ⟨-, e⟩ | ⟨hroom, -⟩ := pushByte_cases v s k
  · exact e
  · exact absurd ((overflows_iff_stackFull s).1 h) hroom

/-- A push that does not overflow writes the cell below `sp` and lowers `sp` to it (R100). -/
theorem pushByte_of_not_overflows {s : State} (h : ¬ Overflows s) (v : Byte) (k : State → Answer) :
    pushByte v s k = k { s with mem := s.mem.store (s.sp - 1).toNat v, sp := s.sp - 1 } := by
  obtain ⟨hfull, -⟩ | ⟨-, e⟩ := pushByte_cases v s k
  · exact absurd ((overflows_iff_stackFull s).2 hfull) h
  · exact e

/-- A pop from the empty stack is fatal (R101). -/
theorem popByte_of_empty {s : State} (h : s.sp = 0xF4) (k : Byte → State → Answer) :
    popByte s k = .next (afterRaise s .stackUnderflow .none) := by
  obtain ⟨-, e⟩ | ⟨hne, -⟩ := popByte_cases s k
  · exact e
  · exact absurd h hne

/-- A pop from a stack that is not empty reads the byte at `sp` and raises `sp` (R101). -/
theorem popByte_of_nonempty {s : State} (h : s.sp ≠ 0xF4) (k : Byte → State → Answer) :
    popByte s k = k (s.mem.load s.sp.toNat) { s with sp := s.sp + 1 } := by
  obtain ⟨hempty, -⟩ | ⟨-, e⟩ := popByte_cases s k
  · exact absurd hempty h
  · exact e

/-- Settles O26, by the push's two outcomes. -/
theorem pushFollowsItsRule : Obligations.PushFollowsItsRule := by
  refine ⟨fun a s h => ?_, fun a s h => ?_, refusesBadRegister_of_withReg exec_push⟩
  · rw [exec_push, withReg_regByte, pushByte_of_not_overflows h]
    exact ⟨_, rfl, fun addr => Memory.load_store _ _ _ _⟩
  · rw [exec_push, withReg_regByte, pushByte_of_overflows h]

/-- Settles O27, by the pop's two outcomes. -/
theorem popFollowsItsRule : Obligations.PopFollowsItsRule := by
  refine ⟨fun a s h => ?_, fun a s h => ?_, refusesBadRegister_of_withReg exec_pop⟩
  · rw [exec_pop, withReg_regByte, popByte_of_nonempty h]
    rfl
  · rw [exec_pop, withReg_regByte, popByte_of_empty h]

/-- A call that does not overflow has a return address below 256, so that it fits a byte (R102). -/
theorem returnAddress_lt {s : State} (h : ¬ Overflows s) : s.pc.toNat + 2 < 256 := by
  have := s.sp.isLt
  unfold Overflows at h
  omega

/-- The return address is `pc + 2` cut to a byte (R102). -/
theorem returnAddress_eq (s : State) : returnAddress s = BitVec.ofNat 8 (s.pc.toNat + 2) := by
  unfold returnAddress
  bv_omega

/-- Settles O28, by the push's two outcomes. -/
theorem callFollowsItsRule : Obligations.CallFollowsItsRule := by
  refine ⟨fun a s h => ⟨returnAddress_lt h, ?_⟩, fun a s h => ?_, refusesBadRegister_of_withReg exec_call⟩
  · rw [exec_call, withReg_regByte, pushByte_of_not_overflows h, returnAddress_eq]
    exact ⟨_, rfl, fun addr => Memory.load_store _ _ _ _⟩
  · rw [exec_call, withReg_regByte, pushByte_of_overflows h]

/-- Settles O29, by the pop's two outcomes. -/
theorem retFollowsItsRule : Obligations.RetFollowsItsRule := fun s =>
  ⟨fun h => (exec_ret s).trans (popByte_of_nonempty h _), fun h => (exec_ret s).trans (popByte_of_empty h _)⟩

/-- A push from any `sp` but 0xF5 leaves a stack that is not empty. -/
theorem sp_sub_one_ne_spInit {p : Byte} (h : p ≠ 0xF5) : p - 1 ≠ 0xF4 := by bv_omega

/-- Settles O30: the pop reads the cell the push wrote, and raises `sp` to where it was. -/
theorem pushThenPopRestores : Obligations.PushThenPopRestores := by
  intro a s hroom hsp
  obtain ⟨m, hpush, hm⟩ := pushFollowsItsRule.1 a s hroom
  have hpop := popFollowsItsRule.1 a { s with mem := m, sp := s.sp - 1, pc := s.pc + 2 } (sp_sub_one_ne_spInit hsp)
  have htop : m.load (s.sp - 1).toNat = s.x[a] := by rw [hm, if_pos rfl]
  refine ⟨_, _, hpush, hpop, ?_, BitVec.sub_add_cancel _ _, rfl, rfl, htop⟩
  show s.x.set a.val (m.load (s.sp - 1).toNat) = s.x
  rw [htop]
  exact Vector.set_getElem_self _

/-! ## HLT and the jumps -/

/-- Settles O32, by definition. -/
theorem hltFollowsItsRule : Obligations.HltFollowsItsRule := exec_hlt

/-- Settles O33, from the register check. -/
theorem jmpFollowsItsRule : Obligations.JmpFollowsItsRule := by
  refine ⟨fun a s => ?_, refusesBadRegister_of_withReg exec_jmp⟩
  rw [exec_jmp, withReg_regByte]
  rfl

/-- Settles O34: each of the three tests one bit. -/
theorem singleBitJumpsFollowTheirRules : Obligations.SingleBitJumpsFollowTheirRules :=
  have hjeq := condJump_rule (P := bitE) exec_jeq fun _ => Iff.rfl
  have hjlt := condJump_rule (P := bitL) exec_jlt fun _ => Iff.rfl
  have hjgt := condJump_rule (P := bitG) exec_jgt fun _ => Iff.rfl
  ⟨hjeq.1, hjeq.2, hjlt.1, hjlt.2, hjgt⟩

/-- Settles O35: the conditions are a complement and two disjunctions of bits. -/
theorem combinedJumpsFollowTheirRules : Obligations.CombinedJumpsFollowTheirRules :=
  have hjne := condJump_rule (P := fun fl => ¬ bitE fl) exec_jne fun fl => by
    simp [condNe, flagE, bitE]
  have hjle := condJump_rule (P := fun fl => bitL fl ∨ bitE fl) exec_jle fun _ => Bool.or_eq_true_iff
  have hjge := condJump_rule (P := fun fl => bitG fl ∨ bitE fl) exec_jge fun _ => Bool.or_eq_true_iff
  ⟨hjne.1, hjne.2, hjle.1, hjle.2, hjge⟩

/-! ## LDI and the output instructions -/

/-- Settles O36, from the register check. -/
theorem ldiFollowsItsRule : Obligations.LdiFollowsItsRule := by
  refine ⟨fun a imm s => ?_, fun imm => refusesBadRegister_of_withReg fun a s => exec_ldi a imm s⟩
  rw [exec_ldi, withReg_regByte]
  rfl

/-- The rule of an output instruction, from the event it makes. -/
theorem printReg_rule {i : Byte → Instr} {event : Byte → OutEvent} (hi : ∀ a s, exec (i a) s = printReg event a s) :
    (∀ (a : Fin 8) (s : State),
      exec (i (regByte a)) s = .next { s with out := s.out ++ [event s.x[a]], pc := s.pc + 2 }) ∧
    RefusesBadRegister i := by
  refine ⟨fun a s => ?_, refusesBadRegister_of_withReg hi⟩
  rw [hi, printReg, withReg_regByte]
  rfl

/-- Settles O37: the two differ in the event they make. -/
theorem outputInstructionsFollowTheirRules : Obligations.OutputInstructionsFollowTheirRules :=
  have hprn := printReg_rule exec_prn
  have hpra := printReg_rule exec_pra
  ⟨hprn.1, hprn.2, hpra⟩

end Sys2Proof.InstructionProofs

/-! Proofs about fetching and the step (42_control_dispatch.md section 1): what a step does with the bytes at `pc`. -/

namespace Sys2Proof.FetchProofs

open Machine Claims EncodingProofs

/-! ## The bytes at `pc` -/

/-- There are as many bytes from `a` on as there are cells. -/
theorem bytesFrom_length (m : Memory) (a : Nat) : (m.bytesFrom a).length = 256 - a := by
  simp [Memory.bytesFrom, Config.memSize]

/-- The bytes at `pc` are an instruction when they begin with its encoding. -/
theorem runsAt_iff (s : State) (i : Instr) : RunsAt s i ↔ ∃ rest, s.mem.bytesFrom s.pc.toNat = encode i ++ rest :=
  exists_congr fun rest => decodeAndEncodeAgree _ i rest

/-- One instruction at most stands at `pc`. -/
theorem runsAt_unique {s : State} {i j : Instr} (hi : RunsAt s i) (hj : RunsAt s j) : i = j := by
  obtain ⟨_, hi⟩ := hi
  obtain ⟨_, hj⟩ := hj
  rw [hi] at hj
  simp only [Except.ok.injEq, Prod.mk.injEq] at hj
  exact hj.1

/-- An instruction that is fetched lies inside memory: `pc` plus its length is at most 256 (R19). -/
theorem runsAt_length {s : State} {i : Instr} (h : RunsAt s i) : s.pc.toNat + (encode i).length ≤ 256 := by
  obtain ⟨rest, hbytes⟩ := (runsAt_iff s i).1 h
  have hlen := congrArg List.length hbytes
  rw [bytesFrom_length, List.length_append] at hlen
  have : 0 < (encode i).length := Nat.succ_pos _
  omega

/-- A recognised opcode whose operand bytes reach beyond the last cell does not decode. -/
theorem decode_of_operand_beyond {s : State} (hpc : s.pc.toNat < 256) (hop : s.mem.load s.pc.toNat ∈ knownOpcodes)
    (hbeyond : 256 ≤ s.pc.toNat + (s.mem.load s.pc.toNat).toNat / 64) :
    ∃ k, decode (s.mem.bytesFrom s.pc.toNat) = .error (.missingOperand k) := by
  obtain ⟨o, ho⟩ := Option.isSome_iff_exists.1 ((ofByte_isSome_iff _).2 hop)
  rw [← operandCount_eq] at hbeyond
  obtain ⟨htake, -⟩ := fetchOperands_beyond (addr := s.pc.toNat + 1) hpc
    (show Config.memSize < s.pc.toNat + 1 + operandCount (s.mem.load s.pc.toNat) from by
      show 256 < _
      omega) 1 s fun _ => .next s
  refine ⟨1 + (Config.memSize - (s.pc.toNat + 1)), ?_⟩
  rw [Memory.bytesFrom_cons _ hpc]
  simp only [decode, ho, htake]

/-! ## One step -/

/-- The fatal error of fetching bytes that do not decode (R110). -/
def fetchFatal (s : State) : DecodeError → FatalKind × FaultInfo
  | .noOpcode => (.outOfBoundsAccess, .address s.pc.toNat)
  | .unknownOpcode opcode => (.unknownOpcode, .opcode opcode)
  | .missingOperand _ => (.outOfBoundsAccess, .address 256)

/-- Fetching goes on with the instruction the bytes at `pc` decode to, or raises the error of their not decoding. -/
theorem fetch_eq (s : State) (k : Instr → Answer) :
    fetch s k = match decode (s.mem.bytesFrom s.pc.toNat) with
      | .ok (i, _) => k i
      | .error e => .next (s.afterFatal (fetchFatal s e).1 (fetchFatal s e).2) := by
  obtain ⟨i, rest, hdecode, hfetch⟩ | ⟨-, hdecode, hfetch⟩ | ⟨-, -, hdecode, hfetch⟩ | ⟨-, -, -, hdecode, hfetch⟩ :=
    fetch_cases s k <;> rw [hdecode, hfetch] <;> rfl

/-- A step of the Running machine whose bytes at `pc` decode executes what they decode to. -/
theorem step_of_runsAt {s : State} {i : Instr} (hmode : s.mode = .running) (h : RunsAt s i) : step s = exec i s := by
  obtain ⟨rest, hdecode⟩ := h
  simp only [step, hmode, fetch_eq, hdecode]

/-- A step of the Running machine whose bytes at `pc` do not decode raises the error of fetching them. -/
theorem step_of_decode_error {s : State} {e : DecodeError} (hmode : s.mode = .running)
    (h : decode (s.mem.bytesFrom s.pc.toNat) = .error e) :
    step s = .next (s.afterFatal (fetchFatal s e).1 (fetchFatal s e).2) := by
  simp only [step, hmode, fetch_eq, h]

/-- A step whose opcode is recognised and whose operand bytes reach beyond the last cell raises at address 256. -/
theorem step_of_operand_beyond {s : State} (hmode : s.mode = .running) (hpc : s.pc.toNat < 256)
    (hop : s.mem.load s.pc.toNat ∈ knownOpcodes) (h : 256 ≤ s.pc.toNat + (s.mem.load s.pc.toNat).toNat / 64) :
    step s = .next (afterRaise s .outOfBoundsAccess (.address 256)) := by
  obtain ⟨k, hdecode⟩ := decode_of_operand_beyond hpc hop h
  exact step_of_decode_error hmode hdecode

/-- Settles O6: fetching goes on with the decoded instruction. -/
theorem stepRunsTheDecodedInstruction : Obligations.StepRunsTheDecodedInstruction :=
  fun _ _ rest hmode hdecode => step_of_runsAt hmode ⟨rest, hdecode⟩

/-- Settles O7: in each clause the bytes at `pc` fail to decode in one way. -/
theorem fetchErrorsInOrder : Obligations.FetchErrorsInOrder := by
  refine ⟨fun s hmode hpc => ?_, fun s hmode hpc hop => ?_,
    fun s hmode hpc hop htop => ?_, fun s hmode hpc hop htop => ?_⟩
  · have hdecode : decode (s.mem.bytesFrom s.pc.toNat) = .error .noOpcode := by
      rw [Memory.bytesFrom_nil _ hpc]
      rfl
    exact step_of_decode_error hmode hdecode
  · have hdecode : decode (s.mem.bytesFrom s.pc.toNat) = .error (.unknownOpcode (s.mem.load s.pc.toNat)) := by
      rw [Memory.bytesFrom_cons _ hpc]
      simp only [decode, (ofByte_eq_none_iff _).2 hop]
    exact step_of_decode_error hmode hdecode
  · rw [← hpc] at hop htop
    exact step_of_operand_beyond hmode (by omega) hop (by omega)
  · rw [← hpc] at hop htop
    exact step_of_operand_beyond hmode (by omega) hop (by omega)

/-- Settles O8, by the mode. -/
theorem noStepOutsideRunning : Obligations.NoStepOutsideRunning := fun s =>
  ⟨fun h => by simp only [step, h], fun h => by simp only [step, h], fun h => by simp only [step, h]⟩

end Sys2Proof.FetchProofs

/-! Proofs about every instruction: its fatal error or its effect on each field of the state, said once, and its frame. -/

namespace Sys2Proof.EffectProofs

open Machine Claims InstructionProofs

/-! ## The fatal errors of an instruction -/

/-- The first register operand byte above 7 (R54, R111). -/
def badOperand (i : Instr) : Option Byte := i.registerOperands.find? fun b => decide (7 < b.toNat)

/-- The fatal error of an instruction whose register operands are legal (R77, R78, R100 to R103). -/
def stateFatal (i : Instr) (s : State) : Option FatalKind :=
  match i with
  | .push _ | .call _ => if s.stackFull then some .stackOverflow else none
  | .pop _ | .ret => if s.sp = Config.spInit then some .stackUnderflow else none
  | .div _ b => if regAt s b = 0 then some .divisionByZero else none
  | .mod _ b => if regAt s b = 0 then some .moduloByZero else none
  | _ => none

/-! ## The effect of an instruction that completes, field by field -/

/-- What an instruction writes to its destination register, if it has one. -/
def result (i : Instr) (s : State) : Byte :=
  match i with
  | .pop _ => s.mem.load s.sp.toNat
  | .ldi _ imm => imm
  | .inc a => regAt s a + 1
  | .dec a => regAt s a - 1
  | .not a => regAt s a ^^^ 0xFF
  | .add a b => add8 (regAt s a) (regAt s b)
  | .sub a b => sub8 (regAt s a) (regAt s b)
  | .mul a b => mul8 (regAt s a) (regAt s b)
  | .div a b => div8 (regAt s a) (regAt s b)
  | .mod a b => mod8 (regAt s a) (regAt s b)
  | .and a b => regAt s a &&& regAt s b
  | .or a b => regAt s a ||| regAt s b
  | .xor a b => regAt s a ^^^ regAt s b
  | .shl a b => shl8 (regAt s a) (regAt s b)
  | .shr a b => shr8 (regAt s a) (regAt s b)
  | _ => 0

/-- The registers with `v` in the one a byte names, if it names one. -/
def setRegAt (x : Vector Byte 8) (b v : Byte) : Vector Byte 8 := if h : b.toNat < 8 then x.set b.toNat v else x

/-- The registers after an instruction: its destination takes its result. -/
def newX (i : Instr) (s : State) : Vector Byte 8 :=
  match destination i with
  | some a => setRegAt s.x a (result i s)
  | none => s.x

/-- The byte an instruction pushes, if it pushes one (R100, R102). -/
def pushed (i : Instr) (s : State) : Option Byte :=
  match i with
  | .push a => some (regAt s a)
  | .call _ => some (returnAddress s)
  | _ => none

/-- The memory after an instruction: the pushed byte stands in the cell below `sp`. -/
def newMem (i : Instr) (s : State) : Memory :=
  match pushed i s with
  | some v => s.mem.store (s.sp - 1).toNat v
  | none => s.mem

/-- The stack pointer after an instruction (R13). -/
def newSp (i : Instr) (p : Byte) : Byte :=
  match i with
  | .push _ | .call _ => p - 1
  | .pop _ | .ret => p + 1
  | _ => p

/-- The flags after an instruction (R16). -/
def newFl (i : Instr) (s : State) : Byte :=
  match i with
  | .cmp a b => compareFlags (regAt s a) (regAt s b)
  | _ => s.fl

/-- The mode after an instruction (R117). -/
def newMode (i : Instr) (m : Mode) : Mode :=
  match i with
  | .hlt => .halted
  | _ => m

/-- The event an instruction emits, if it emits one (R131, R132). -/
def event (i : Instr) (s : State) : Option OutEvent :=
  match i with
  | .prn a => some (.num (regAt s a))
  | .pra a => some (.chr (regAt s a))
  | _ => none

/-- The output after an instruction (R22). -/
def newOut (i : Instr) (s : State) : List OutEvent :=
  match event i s with
  | some ev => s.out ++ [ev]
  | none => s.out

/-- The state after an instruction that raises no fatal error. -/
def completed (i : Instr) (s : State) : State where
  mem := newMem i s
  x := newX i s
  sp := newSp i s.sp
  fl := newFl i s
  pc := nextPc i s
  mode := newMode i s.mode
  fault := s.fault
  out := newOut i s

/-- The state after an instruction whose register operands are legal. -/
def checked (i : Instr) (s : State) : State :=
  match stateFatal i s with
  | some kind => s.afterFatal kind .none
  | none => completed i s

/-- The state after an instruction: the register operands are checked first (R111). -/
def outcome (i : Instr) (s : State) : State :=
  match badOperand i with
  | some b => s.afterFatal .invalidRegister (.index b)
  | none => checked i s

theorem checked_of_fatal {i : Instr} {s : State} {kind : FatalKind} (h : stateFatal i s = some kind) :
    checked i s = s.afterFatal kind .none := by rw [checked, h]

theorem checked_of_safe {i : Instr} {s : State} (h : stateFatal i s = none) : checked i s = completed i s := by
  rw [checked, h]

/-! ## The operand forms end in the outcome -/

/-- The register a legal byte names holds what `regAt` says. -/
theorem reg_eq_regAt (s : State) {b : Byte} (h : b.toNat < 8) : s.reg ⟨b.toNat, h⟩ = regAt s b := by
  rw [regAt, dif_pos h]
  rfl

/-- Writing the register a legal byte names is what `setRegAt` does. -/
theorem set_eq_setRegAt (x : Vector Byte 8) {b : Byte} (h : b.toNat < 8) (v : Byte) :
    x.set b.toNat v = setRegAt x b v := by rw [setRegAt, dif_pos h]

/-- A check of the only register operand, then the checked meaning, is the outcome. -/
theorem withReg_eq_outcome {i : Instr} {a : Byte} {s : State} {k : Fin 8 → Answer} (hops : i.registerOperands = [a])
    (hk : ∀ h : a.toNat < 8, k ⟨a.toNat, h⟩ = .next (checked i s)) : withReg a s k = .next (outcome i s) := by
  obtain ⟨ha, e⟩ | ⟨ha, e⟩ := withReg_cases a s k
  · simp [e, outcome, badOperand, hops, ha]
  · simp [e, outcome, badOperand, hops, hk, Nat.not_lt.2 (Nat.le_of_lt_succ ha)]

/-- A check of both register operands in order, then the checked meaning, is the outcome. -/
theorem withRegs_eq_outcome {i : Instr} {a b : Byte} {s : State} {k : Fin 8 → Fin 8 → Answer}
    (hops : i.registerOperands = [a, b])
    (hk : ∀ (ha : a.toNat < 8) (hb : b.toNat < 8), k ⟨a.toNat, ha⟩ ⟨b.toNat, hb⟩ = .next (checked i s)) :
    withRegs a b s k = .next (outcome i s) := by
  obtain ⟨ha, e⟩ | ⟨ha, hb, e⟩ | ⟨ha, hb, e⟩ := withRegs_cases a b s k
  · simp [e, outcome, badOperand, hops, ha]
  · simp [e, outcome, badOperand, hops, Nat.not_lt.2 (Nat.le_of_lt_succ ha), hb]
  · simp [e, outcome, badOperand, hops, hk, Nat.not_lt.2 (Nat.le_of_lt_succ ha), Nat.not_lt.2 (Nat.le_of_lt_succ hb)]

/-- A push that checks the stack first, then goes on to `t`. -/
theorem pushByte_eq_checked {i : Instr} {s : State} {v : Byte} {k : State → Answer}
    (hfatal : stateFatal i s = if s.stackFull then some .stackOverflow else none)
    (hk : k { s with mem := s.mem.store (s.sp - 1).toNat v, sp := s.sp - 1 } = .next (completed i s)) :
    pushByte v s k = .next (checked i s) := by
  obtain ⟨hfull, e⟩ | ⟨hfull, e⟩ := pushByte_cases v s k
  · rw [e, checked_of_fatal (hfatal.trans (if_pos hfull))]
  · rw [e, hk, checked_of_safe (hfatal.trans (if_neg hfull))]

theorem popByte_eq_checked {i : Instr} {s : State} {k : Byte → State → Answer}
    (hfatal : stateFatal i s = if s.sp = Config.spInit then some .stackUnderflow else none)
    (hk : k (s.mem.load s.sp.toNat) { s with sp := s.sp + 1 } = .next (completed i s)) :
    popByte s k = .next (checked i s) := by
  obtain ⟨hempty, e⟩ | ⟨hempty, e⟩ := popByte_cases s k
  · rw [e, checked_of_fatal (hfatal.trans (if_pos hempty))]
  · rw [e, hk, checked_of_safe (hfatal.trans (if_neg hempty))]

theorem condJump_eq_outcome {i : Instr} {cond : Byte → Bool} {a : Byte} {s : State}
    (hops : i.registerOperands = [a]) (hfatal : stateFatal i s = none)
    (hdone : completed i s = if cond s.fl then s.jumpTo (regAt s a) else s.advance 2) :
    condJump cond a s = .next (outcome i s) :=
  withReg_eq_outcome hops fun ha => by rw [checked_of_safe hfatal, hdone, reg_eq_regAt s ha]

theorem printReg_eq_outcome {i : Instr} {event : Byte → OutEvent} {a : Byte} {s : State}
    (hops : i.registerOperands = [a]) (hfatal : stateFatal i s = none)
    (hdone : completed i s = (s.emit (event (regAt s a))).advance 2) : printReg event a s = .next (outcome i s) :=
  withReg_eq_outcome hops fun ha => by rw [checked_of_safe hfatal, hdone, reg_eq_regAt s ha]

theorem unaryAlu_eq_outcome {i : Instr} {f : Byte → Byte} {a : Byte} {s : State} (hops : i.registerOperands = [a])
    (hfatal : stateFatal i s = none)
    (hdone : completed i s = State.advance { s with x := setRegAt s.x a (f (regAt s a)) } 2) :
    unaryAlu f a s = .next (outcome i s) :=
  withReg_eq_outcome hops fun ha => by
    rw [checked_of_safe hfatal, hdone, reg_eq_regAt s ha, State.setReg, set_eq_setRegAt s.x ha]

theorem binaryAlu_eq_outcome {i : Instr} {f : Byte → Byte → Byte} {a b : Byte} {s : State}
    (hops : i.registerOperands = [a, b]) (hfatal : stateFatal i s = none)
    (hdone : completed i s = State.advance { s with x := setRegAt s.x a (f (regAt s a) (regAt s b)) } 3) :
    binaryAlu f a b s = .next (outcome i s) :=
  withRegs_eq_outcome hops fun ha hb => by
    rw [checked_of_safe hfatal, hdone, reg_eq_regAt s ha, reg_eq_regAt s hb, State.setReg, set_eq_setRegAt s.x ha]

theorem divideAlu_eq_outcome {i : Instr} {kind : FatalKind} {f : Byte → Byte → Byte} {a b : Byte} {s : State}
    (hops : i.registerOperands = [a, b]) (hfatal : stateFatal i s = if regAt s b = 0 then some kind else none)
    (hdone : completed i s = State.advance { s with x := setRegAt s.x a (f (regAt s a) (regAt s b)) } 3) :
    divideAlu kind f a b s = .next (outcome i s) :=
  withRegs_eq_outcome hops fun ha hb => by
    rw [reg_eq_regAt s ha, reg_eq_regAt s hb, State.setReg, set_eq_setRegAt s.x ha, ← hdone]
    split
    · next hz => rw [checked_of_fatal (hfatal.trans (if_pos hz)), raise_eq]
    · next hz => rw [checked_of_safe (hfatal.trans (if_neg hz))]

/-- A conditional jump that completes, from its place in the table of `nextPc` (R112). -/
theorem completed_of_nextPc {i : Instr} {c : Bool} {a : Byte} {s : State}
    (hother : completed i s = { s with pc := nextPc i s })
    (hpc : nextPc i s = if c then (regAt s a).setWidth 9 else s.pc + 2) :
    completed i s = if c then s.jumpTo (regAt s a) else s.advance 2 := by
  rw [hother, hpc]
  cases c <;> rfl

/-- JNE's place in the table, with the condition it tests (R120). -/
theorem nextPc_jne (a : Byte) (s : State) :
    nextPc (.jne a) s = if condNe s.fl then (regAt s a).setWidth 9 else s.pc + 2 := by
  unfold nextPc condNe flagE
  cases s.fl.getLsbD 0 <;> rfl

/-- Every instruction answers its outcome, in every state. -/
theorem exec_eq_outcome (i : Instr) (s : State) : exec i s = .next (outcome i s) := by
  cases i with
  | hlt => rfl
  | ret => exact (exec_ret s).trans (popByte_eq_checked rfl rfl)
  | push a =>
    rw [exec_push]
    exact withReg_eq_outcome rfl fun ha => pushByte_eq_checked rfl (by rw [reg_eq_regAt]; rfl)
  | pop a =>
    rw [exec_pop]
    exact withReg_eq_outcome rfl fun ha => popByte_eq_checked rfl (by rw [State.setReg, set_eq_setRegAt _ ha]; rfl)
  | call a =>
    rw [exec_call]
    exact withReg_eq_outcome rfl fun ha => pushByte_eq_checked rfl (by rw [reg_eq_regAt]; rfl)
  | jmp a =>
    rw [exec_jmp]
    exact withReg_eq_outcome rfl fun ha => by rw [reg_eq_regAt]; rfl
  | jeq a => exact (exec_jeq a s).trans (condJump_eq_outcome rfl rfl (completed_of_nextPc rfl rfl))
  | jgt a => exact (exec_jgt a s).trans (condJump_eq_outcome rfl rfl (completed_of_nextPc rfl rfl))
  | jlt a => exact (exec_jlt a s).trans (condJump_eq_outcome rfl rfl (completed_of_nextPc rfl rfl))
  | jle a => exact (exec_jle a s).trans (condJump_eq_outcome rfl rfl (completed_of_nextPc rfl rfl))
  | jge a => exact (exec_jge a s).trans (condJump_eq_outcome rfl rfl (completed_of_nextPc rfl rfl))
  | jne a => exact (exec_jne a s).trans (condJump_eq_outcome rfl rfl (completed_of_nextPc rfl (nextPc_jne a s)))
  | prn a => exact (exec_prn a s).trans (printReg_eq_outcome rfl rfl rfl)
  | pra a => exact (exec_pra a s).trans (printReg_eq_outcome rfl rfl rfl)
  | inc a => exact (exec_inc a s).trans (unaryAlu_eq_outcome rfl rfl rfl)
  | dec a => exact (exec_dec a s).trans (unaryAlu_eq_outcome rfl rfl rfl)
  | not a => exact (exec_not a s).trans (unaryAlu_eq_outcome rfl rfl rfl)
  | ldi a imm =>
    rw [exec_ldi]
    exact withReg_eq_outcome rfl fun ha => by rw [State.setReg, set_eq_setRegAt _ ha]; rfl
  | add a b => exact (exec_add a b s).trans (binaryAlu_eq_outcome rfl rfl rfl)
  | sub a b => exact (exec_sub a b s).trans (binaryAlu_eq_outcome rfl rfl rfl)
  | mul a b => exact (exec_mul a b s).trans (binaryAlu_eq_outcome rfl rfl rfl)
  | and a b => exact (exec_and a b s).trans (binaryAlu_eq_outcome rfl rfl rfl)
  | or a b => exact (exec_or a b s).trans (binaryAlu_eq_outcome rfl rfl rfl)
  | xor a b => exact (exec_xor a b s).trans (binaryAlu_eq_outcome rfl rfl rfl)
  | shl a b => exact (exec_shl a b s).trans (binaryAlu_eq_outcome rfl rfl rfl)
  | shr a b => exact (exec_shr a b s).trans (binaryAlu_eq_outcome rfl rfl rfl)
  | div a b => exact (exec_div a b s).trans (divideAlu_eq_outcome rfl rfl rfl)
  | mod a b => exact (exec_mod a b s).trans (divideAlu_eq_outcome rfl rfl rfl)
  | cmp a b =>
    rw [exec_cmp]
    exact withRegs_eq_outcome rfl fun ha hb => by rw [reg_eq_regAt, reg_eq_regAt]; rfl

/-- Every instruction ends in a next state. -/
theorem exec_next (i : Instr) (s : State) : ∃ t, exec i s = .next t := ⟨_, exec_eq_outcome i s⟩

/-- An outcome is the error of a bad register byte, or another fatal error, or the completed effect. -/
theorem outcome_cases (i : Instr) (s : State) :
    (∃ b, badOperand i = some b ∧ outcome i s = s.afterFatal .invalidRegister (.index b)) ∨
    (badOperand i = none ∧ ∃ kind, stateFatal i s = some kind ∧ outcome i s = s.afterFatal kind .none) ∨
    (badOperand i = none ∧ stateFatal i s = none ∧ outcome i s = completed i s) := by
  unfold outcome
  cases hbad : badOperand i with
  | some b => exact .inl ⟨b, rfl, rfl⟩
  | none =>
    cases hfatal : stateFatal i s with
    | some kind => exact .inr (.inl ⟨rfl, kind, rfl, checked_of_fatal hfatal⟩)
    | none => exact .inr (.inr ⟨rfl, rfl, checked_of_safe hfatal⟩)

/-- A next state that is not Faulted is the completed effect. -/
theorem eq_completed_of_exec {i : Instr} {s t : State} (h : exec i s = .next t) (ht : t.mode ≠ .faulted) :
    t = completed i s := by
  rw [exec_eq_outcome, Host.Outcome.next.injEq] at h
  obtain ⟨b, -, e⟩ | ⟨-, kind, -, e⟩ | ⟨-, -, e⟩ := outcome_cases i s <;> rw [e] at h
  · exact absurd (h ▸ rfl) ht
  · exact absurd (h ▸ rfl) ht
  · exact h.symm

/-! ## The frame -/

theorem setRegAt_other (x : Vector Byte 8) {b : Byte} {j : Fin 8} (h : b ≠ regByte j) (v : Byte) :
    (setRegAt x b v)[j] = x[j] := by
  unfold setRegAt
  split
  · next hb =>
    have hne : b.toNat ≠ j.val := fun e => h (BitVec.eq_of_toNat_eq (by
      rw [e, regByte, BitVec.toNat_ofNat, Nat.mod_eq_of_lt (by omega)]))
    exact Vector.getElem_set_ne hb j.isLt hne
  · rfl

theorem newX_other {i : Instr} {j : Fin 8} (h : destination i ≠ some (regByte j)) (s : State) :
    (newX i s)[j] = s.x[j] := by
  unfold newX
  split
  · next a ha => exact setRegAt_other s.x (fun e => h (ha.trans (congrArg some e))) _
  · rfl

theorem newFl_of_not_cmp {i : Instr} (h : ∀ a b, i ≠ .cmp a b) (s : State) : newFl i s = s.fl := by
  cases i with
  | cmp a b => exact absurd rfl (h a b)
  | _ => rfl

theorem newSp_of_not_usesStack {i : Instr} (h : usesStack i = false) (p : Byte) : newSp i p = p := by
  cases i with
  | push | pop | call | ret => cases h
  | _ => rfl

theorem pushed_eq_none {i : Instr} (hpush : ∀ a, i ≠ .push a) (hcall : ∀ a, i ≠ .call a) (s : State) :
    pushed i s = none := by
  cases i with
  | push a => exact absurd rfl (hpush a)
  | call a => exact absurd rfl (hcall a)
  | _ => rfl

theorem newMem_of_not_pushed {i : Instr} {s : State} (h : pushed i s = none) : newMem i s = s.mem := by
  rw [newMem, h]

/-- No instruction writes a cell other than the one below `sp` (R33). -/
theorem newMem_load_other (i : Instr) (s : State) {addr : Nat} (h : addr ≠ (s.sp - 1).toNat) :
    (newMem i s).load addr = s.mem.load addr := by
  unfold newMem
  split
  · exact Memory.load_store_other s.mem _ h
  · rfl

theorem newOut_of_not_print {i : Instr} (hprn : ∀ a, i ≠ .prn a) (hpra : ∀ a, i ≠ .pra a) (s : State) :
    newOut i s = s.out := by
  cases i with
  | prn a => exact absurd rfl (hprn a)
  | pra a => exact absurd rfl (hpra a)
  | _ => rfl

theorem newMode_of_ne_hlt {i : Instr} (h : i ≠ .hlt) (m : Mode) : newMode i m = m := by
  cases i with
  | hlt => exact absurd rfl h
  | _ => rfl

/-- Settles O38, field by field. -/
theorem frameOfEveryInstruction : Obligations.FrameOfEveryInstruction := by
  intro i s t hmode hexec hok
  obtain rfl := eq_completed_of_exec hexec hok
  refine ⟨fun j hj => newX_other hj s, fun h => newFl_of_not_cmp h s, fun h => newSp_of_not_usesStack h s.sp, ?_,
    fun hprn hpra => newOut_of_not_print hprn hpra s, fun h => (newMode_of_ne_hlt h s.mode).trans hmode, rfl⟩
  rintro addr (⟨hpush, hcall⟩ | haddr)
  · exact congrArg (Memory.load · addr) (newMem_of_not_pushed (pushed_eq_none hpush hcall s))
  · exact newMem_load_other i s haddr

/-- Settles O39: the completed effect takes its `pc` from the table. -/
theorem pcUpdateOfEveryInstruction : Obligations.PcUpdateOfEveryInstruction := by
  intro i s t _ hexec hok
  rw [eq_completed_of_exec hexec hok]
  rfl

/-! ## What instructions read -/

/-- An instruction that raises the same errors and completes with the same effect, but for a change `g` of the state,
answers the same but for that change. -/
theorem exec_comm {g : State → State} {i : Instr} {s : State}
    (hraise : ∀ kind info, (g s).afterFatal kind info = g (s.afterFatal kind info))
    (hfatal : stateFatal i (g s) = stateFatal i s) (hdone : completed i (g s) = g (completed i s)) :
    exec i (g s) = mapNext g (exec i s) := by
  rw [exec_eq_outcome, exec_eq_outcome, mapNext, outcome, outcome, checked, checked, hfatal]
  cases badOperand i with
  | some b => exact congrArg Host.Outcome.next (hraise _ _)
  | none =>
    cases stateFatal i s with
    | some kind => exact congrArg Host.Outcome.next (hraise _ _)
    | none => exact congrArg Host.Outcome.next hdone

theorem exec_comm_fl {i : Instr} (h : usesFlags i = false) (s : State) (f : Byte) :
    exec i { s with fl := f } = mapNext (fun t => { t with fl := f }) (exec i s) := by
  refine exec_comm (g := fun t => { t with fl := f }) (fun _ _ => rfl) ?_ ?_
  · cases i <;> rfl
  · cases i with
    | cmp | jeq | jne | jlt | jle | jgt | jge => cases h
    | _ => rfl

theorem exec_comm_sp {i : Instr} (h : usesStack i = false) (s : State) (p : Byte) :
    exec i { s with sp := p } = mapNext (fun t => { t with sp := p }) (exec i s) := by
  refine exec_comm (g := fun t => { t with sp := p }) (fun _ _ => rfl) ?_ ?_ <;>
  · cases i with
    | push | pop | call | ret => cases h
    | _ => rfl

/-- CMP with a bad register byte raises, whatever `fl` holds, and leaves it. -/
theorem exec_cmp_comm_fl {a b : Byte} (h : 7 < a.toNat ∨ 7 < b.toNat) (s : State) (f : Byte) :
    exec (.cmp a b) { s with fl := f } = mapNext (fun t => { t with fl := f }) (exec (.cmp a b) s) := by
  have hbad : (badOperand (.cmp a b)).isSome = true := by simpa [badOperand, Instr.registerOperands] using h
  obtain ⟨c, hc⟩ := Option.isSome_iff_exists.1 hbad
  rw [exec_eq_outcome, exec_eq_outcome, outcome, outcome, hc]
  rfl

/-- Only CMP writes `fl`, whether it completes or not (R16). -/
theorem fl_of_exec {i : Instr} {s t : State} (hcmp : ∀ a b, i ≠ .cmp a b) (h : exec i s = .next t) : t.fl = s.fl := by
  rw [exec_eq_outcome, Host.Outcome.next.injEq] at h
  obtain ⟨b, -, e⟩ | ⟨-, kind, -, e⟩ | ⟨-, -, e⟩ := outcome_cases i s <;> rw [← h, e]
  · rfl
  · rfl
  · exact newFl_of_not_cmp hcmp s

/-- Settles O41: nothing but the conditional jumps reads `fl`, CMP overwrites it, and no other field's effect names it. -/
theorem flagsAreOnlyForCompareAndJumps : Obligations.FlagsAreOnlyForCompareAndJumps := by
  refine ⟨fun i s f h => exec_comm_fl h s f, fun a b s f => ?_, fun a b s f h => exec_cmp_comm_fl h s f,
    fun i s t hcmp h => fl_of_exec hcmp h⟩
  rw [cmpFollowsItsRule.1, cmpFollowsItsRule.1]

/-- Settles O42: the errors and the effect of the other instructions do not read `sp`, and leave it. -/
theorem stackPointerIsOnlyForStackInstructions : Obligations.StackPointerIsOnlyForStackInstructions :=
  fun _ s p h => exec_comm_sp h s p

end Sys2Proof.EffectProofs

/-! Proofs about every step: it completes an instruction, or raises a fatal error that has its cause. -/

namespace Sys2Proof.StepProofs

open Machine Claims EncodingProofs InstructionProofs FetchProofs EffectProofs

/-! ## Legal register bytes -/

/-- A byte below 8 names a register. -/
theorem exists_regByte {b : Byte} (h : b.toNat < 8) : ∃ r : Fin 8, b = regByte r := by
  refine ⟨⟨b.toNat, h⟩, BitVec.eq_of_toNat_eq ?_⟩
  rw [regByte, BitVec.toNat_ofNat, Nat.mod_eq_of_lt b.isLt]

@[simp] theorem regAt_regByte (s : State) (r : Fin 8) : regAt s (regByte r) = s.x[r] := by
  have hr : (regByte r).toNat = r.val := by
    rw [regByte, BitVec.toNat_ofNat]
    omega
  simp [regAt, hr]

/-- Register operands that pass the check name registers. -/
theorem exists_regByte_of_operand {i : Instr} (h : badOperand i = none) {b : Byte} (hb : b ∈ i.registerOperands) :
    ∃ r : Fin 8, b = regByte r := by
  have hle := List.find?_eq_none.1 h b hb
  simp only [decide_eq_true_eq] at hle
  exact exists_regByte (by omega)

/-- The register operand that fails the check is one of the instruction's, and above 7. -/
theorem operand_of_badOperand {i : Instr} {b : Byte} (h : badOperand i = some b) :
    7 < b.toNat ∧ b ∈ i.registerOperands :=
  ⟨of_decide_eq_true (List.find?_some (p := fun b : Byte => decide (7 < b.toNat)) h), List.mem_of_find?_eq_some h⟩

/-! ## The causes of fatal errors -/

/-- A bad register byte of the instruction at `pc` is the cause of InvalidRegister. -/
theorem cause_of_badOperand {s : State} {i : Instr} {b : Byte} (hrun : RunsAt s i) (h : badOperand i = some b) :
    CauseHolds s .invalidRegister (.index b) := by
  obtain ⟨hb, hmem⟩ := operand_of_badOperand h
  exact ⟨hb, i, hrun, hmem⟩

/-- The stack's bound or a zero divisor is the cause of the other errors of an instruction (R142). -/
theorem cause_of_stateFatal {s : State} {i : Instr} {kind : FatalKind} (hrun : RunsAt s i)
    (hlegal : badOperand i = none) (h : stateFatal i s = some kind) : CauseHolds s kind .none := by
  cases i with
  | push a =>
    obtain ⟨r, rfl⟩ := exists_regByte_of_operand (b := a) hlegal (.head _)
    obtain ⟨hfull, ⟨⟩⟩ := Option.ite_none_right_eq_some.1 h
    exact ⟨⟨r, .inl hrun⟩, (overflows_iff_stackFull s).2 hfull⟩
  | call a =>
    obtain ⟨r, rfl⟩ := exists_regByte_of_operand (b := a) hlegal (.head _)
    obtain ⟨hfull, ⟨⟩⟩ := Option.ite_none_right_eq_some.1 h
    exact ⟨⟨r, .inr hrun⟩, (overflows_iff_stackFull s).2 hfull⟩
  | pop a =>
    obtain ⟨r, rfl⟩ := exists_regByte_of_operand (b := a) hlegal (.head _)
    obtain ⟨hempty, ⟨⟩⟩ := Option.ite_none_right_eq_some.1 h
    exact ⟨.inr ⟨r, hrun⟩, hempty⟩
  | ret =>
    obtain ⟨hempty, ⟨⟩⟩ := Option.ite_none_right_eq_some.1 h
    exact ⟨.inl hrun, hempty⟩
  | div a b =>
    obtain ⟨q, rfl⟩ := exists_regByte_of_operand (b := a) hlegal (.head _)
    obtain ⟨r, rfl⟩ := exists_regByte_of_operand (b := b) hlegal (.tail _ (.head _))
    obtain ⟨hzero, ⟨⟩⟩ := Option.ite_none_right_eq_some.1 h
    exact ⟨q, r, hrun, (regAt_regByte s r).symm.trans hzero⟩
  | mod a b =>
    obtain ⟨q, rfl⟩ := exists_regByte_of_operand (b := a) hlegal (.head _)
    obtain ⟨r, rfl⟩ := exists_regByte_of_operand (b := b) hlegal (.tail _ (.head _))
    obtain ⟨hzero, ⟨⟩⟩ := Option.ite_none_right_eq_some.1 h
    exact ⟨q, r, hrun, (regAt_regByte s r).symm.trans hzero⟩
  | _ => cases h

/-- Bytes at `pc` that do not decode are the cause of the error fetching them raises; an address it names is the first
one fetched that is not in memory. -/
theorem cause_of_decode_error {s : State} {e : DecodeError} (h : decode (s.mem.bytesFrom s.pc.toNat) = .error e) :
    CauseHolds s (fetchFatal s e).1 (fetchFatal s e).2 ∧
      ∀ addr, (fetchFatal s e).2 = .address addr → addr = max 256 s.pc.toNat := by
  obtain ⟨i, rest, hdecode, -⟩ | ⟨hpc, hdecode, -⟩ | ⟨hpc, hnone, hdecode, -⟩ | ⟨hpc, ⟨o, ho⟩, hbeyond, hdecode, -⟩ :=
    fetch_cases s fun _ => .next s <;> rw [hdecode] at h <;> cases h
  · exact ⟨⟨hpc, .inl rfl⟩, fun addr e => by cases e; exact (Nat.max_eq_right hpc).symm⟩
  · exact ⟨⟨hpc, rfl, (ofByte_eq_none_iff _).1 hnone⟩, fun addr e => by cases e⟩
  · have hop := (ofByte_isSome_iff (s.mem.load s.pc.toNat)).1 (by rw [ho]; rfl)
    rw [operandCount_eq] at hbeyond
    exact ⟨⟨Nat.le_refl _, .inr ⟨hop, hpc, hbeyond⟩⟩, fun addr e => by
      cases e; exact (Nat.max_eq_left (Nat.le_of_lt hpc)).symm⟩

/-- A cause of a kind comes with what the record of that kind holds (R142). -/
theorem fits_of_cause {s : State} {kind : FatalKind} {info : FaultInfo} (h : CauseHolds s kind info) (pc : PcWord) :
    FaultRecordFits ⟨kind, pc, info⟩ := by
  unfold CauseHolds at h
  split at h
  · obtain ⟨-, rfl, hunknown⟩ := h
    exact (ofByte_eq_none_iff _).2 hunknown
  · exact h.1
  · exact trivial
  · exact trivial
  · exact trivial
  · exact trivial
  · exact h.1
  · exact h.elim

/-! ## What a step can do -/

/-- A step is one of a Running machine, and completes the instruction at `pc`, which passed its checks, or raises a
fatal error that has its cause. -/
theorem step_cases {s t : State} (h : step s = .next t) : s.mode = .running ∧
    ((∃ i, RunsAt s i ∧ stateFatal i s = none ∧ badOperand i = none ∧ t = completed i s) ∨
     (∃ kind info, CauseHolds s kind info ∧ (∀ addr, info = .address addr → addr = max 256 s.pc.toNat) ∧
       t = s.afterFatal kind info)) := by
  have hmode : s.mode = .running := by
    cases hm : s.mode <;> simp [step, hm] at h ⊢
  refine ⟨hmode, ?_⟩
  cases hdecode : decode (s.mem.bytesFrom s.pc.toNat) with
  | error e =>
    rw [step_of_decode_error hmode hdecode, Host.Outcome.next.injEq] at h
    obtain ⟨hcause, haddr⟩ := cause_of_decode_error hdecode
    exact .inr ⟨_, _, hcause, haddr, h.symm⟩
  | ok r =>
    have hrun : RunsAt s r.1 := ⟨r.2, hdecode⟩
    rw [step_of_runsAt hmode hrun, exec_eq_outcome, Host.Outcome.next.injEq] at h
    subst h
    obtain ⟨b, hbad, e⟩ | ⟨hlegal, kind, hfatal, e⟩ | ⟨hlegal, hsafe, e⟩ := outcome_cases r.1 s
    · exact .inr ⟨_, _, cause_of_badOperand hrun hbad, by simp, e⟩
    · exact .inr ⟨_, _, cause_of_stateFatal hrun hlegal hfatal, by simp, e⟩
    · exact .inl ⟨r.1, hrun, hsafe, hlegal, e⟩

/-- Settles O9: a fetch that fails raises, and every instruction ends in a next state. -/
theorem runningMachineAlwaysSteps : Obligations.RunningMachineAlwaysSteps := by
  intro s hmode
  cases hdecode : decode (s.mem.bytesFrom s.pc.toNat) with
  | error e => exact ⟨_, step_of_decode_error hmode hdecode⟩
  | ok r =>
    rw [step_of_runsAt hmode ⟨r.2, hdecode⟩]
    exact exec_next r.1 s

/-! ## The mode -/

/-- A completed instruction of a Running machine leaves it Halted, when it is HLT, or Running. -/
theorem completed_mode (i : Instr) {s : State} (hmode : s.mode = .running) :
    (i = .hlt ∧ (completed i s).mode = .halted) ∨ (i ≠ .hlt ∧ (completed i s).mode = .running) := by
  by_cases h : i = .hlt
  · subst h
    exact .inl ⟨rfl, rfl⟩
  · exact .inr ⟨h, (newMode_of_ne_hlt h s.mode).trans hmode⟩

/-- A completed instruction of a Running machine does not leave it Faulted. -/
theorem completed_mode_ne_faulted (i : Instr) {s : State} (hmode : s.mode = .running) :
    (completed i s).mode ≠ .faulted := by
  obtain ⟨-, h⟩ | ⟨-, h⟩ := completed_mode i hmode <;> simp [h]

/-- Settles O46: an error leaves the machine Faulted, a completed instruction Running unless it is HLT. -/
theorem haltedOnlyByHlt : Obligations.HaltedOnlyByHlt := by
  intro s t h
  obtain ⟨hmode, ⟨i, hrun, -, -, rfl⟩ | ⟨kind, info, hcause, -, rfl⟩⟩ := step_cases h
  · obtain ⟨rfl, ht⟩ | ⟨hne, ht⟩ := completed_mode i hmode
    · exact ⟨hmode, .inr (.inl ht), iff_of_true ht hrun⟩
    · exact ⟨hmode, .inl ht, iff_of_false (by simp [ht]) fun hhlt => hne (runsAt_unique hrun hhlt)⟩
  · refine ⟨hmode, .inr (.inr rfl), iff_of_false (by simp [State.afterFatal]) fun hhlt => ?_⟩
    rw [step_of_runsAt hmode hhlt, hltFollowsItsRule, Host.Outcome.next.injEq] at h
    exact absurd (congrArg State.mode h) (by simp [State.afterFatal])

/-! ## Fatal errors -/

/-- A step that ends Faulted raised an error that has its cause. -/
theorem raised_of_faulted {s t : State} (h : step s = .next t) (ht : t.mode = .faulted) :
    ∃ kind info, CauseHolds s kind info ∧ t = s.afterFatal kind info := by
  obtain ⟨hmode, ⟨i, -, -, -, rfl⟩ | ⟨kind, info, hcause, -, e⟩⟩ := step_cases h
  · exact absurd ht (completed_mode_ne_faulted i hmode)
  · exact ⟨kind, info, hcause, e⟩

/-- Settles O47: an error changes the record and the mode, and its cause makes the record fit. -/
theorem fatalErrorsArePrecise : Obligations.FatalErrorsArePrecise := by
  intro s t h ht
  obtain ⟨kind, info, hcause, rfl⟩ := raised_of_faulted h ht
  exact ⟨kind, info, rfl, fits_of_cause hcause s.pc⟩

/-- Settles O48: the record is the one of the error that was raised. -/
theorem fatalErrorsHaveTheirCause : Obligations.FatalErrorsHaveTheirCause := by
  intro s t r h ht hr
  obtain ⟨kind, info, hcause, rfl⟩ := raised_of_faulted h ht
  obtain rfl := Option.some.inj hr
  exact hcause

/-- Settles O49: a Running machine has no record yet, and the first address outside memory is 256 unless
`pc` is above. -/
theorem outOfRangeAddressIsAlways256 : Obligations.OutOfRangeAddressIsAlways256 := by
  intro s t r addr hinv h hr _ haddr
  obtain ⟨hmode, ⟨i, -, -, -, rfl⟩ | ⟨kind, info, -, hmax, rfl⟩⟩ := step_cases h
  · have hfaulted : s.mode = .faulted := hinv.faulted.2 (by rw [show s.fault = some r from hr]; simp)
    exact absurd (hmode.symm.trans hfaulted) (by decide)
  · obtain rfl := Option.some.inj hr
    rw [hmax addr haddr, Nat.max_eq_left hinv.pcRange]

/-! ## The program counter -/

/-- An instruction that takes no transfer leaves `pc` past itself (R112 b). -/
theorem nextPc_of_not_redirects {i : Instr} {s : State} (h : redirects s.fl i = false) :
    nextPc i s = s.pc + BitVec.ofNat 9 (encode i).length := by
  cases i with
  | jmp | call | ret => cases h
  | jeq | jlt | jle | jgt | jge => exact if_neg (Bool.eq_false_iff.1 h)
  | jne => exact if_pos (by simpa [redirects] using h)
  | _ => rfl

/-- A transfer that is taken goes to a byte (R116). -/
theorem nextPc_of_redirects {i : Instr} {s : State} (h : redirects s.fl i = true) :
    ∃ target : Byte, nextPc i s = target.setWidth 9 := by
  cases i with
  | jmp | call | ret => exact ⟨_, rfl⟩
  | jeq | jlt | jle | jgt | jge => exact ⟨_, if_pos h⟩
  | jne => exact ⟨_, if_neg (by simpa [redirects] using h)⟩
  | _ => cases h

/-- An instruction inside memory advances `pc` without wrapping (R19). -/
theorem advance_toNat {s : State} {i : Instr} (hrun : RunsAt s i) :
    (s.pc + BitVec.ofNat 9 (encode i).length).toNat = s.pc.toNat + (encode i).length := by
  have := runsAt_length hrun
  rw [BitVec.toNat_add, BitVec.toNat_ofNat]
  omega

/-- Settles O40: the instruction lies inside memory, so the byte after it is at most 256. -/
theorem autoAdvanceDoesNotWrap : Obligations.AutoAdvanceDoesNotWrap := by
  intro s t i hmode hrun h hok hstay
  rw [step_of_runsAt hmode hrun] at h
  rw [eq_completed_of_exec h hok, show (completed i s).pc = nextPc i s from rfl, nextPc_of_not_redirects hstay,
    advance_toNat hrun]
  exact ⟨rfl, runsAt_length hrun⟩

/-! ## The output -/

theorem newOut_eq (i : Instr) (s : State) : newOut i s = s.out ++ (event i s).toList := by
  unfold newOut
  cases event i s <;> simp

/-- With any other output, the errors of an instruction are the same. -/
theorem stateFatal_out (i : Instr) (s : State) (o : List OutEvent) :
    stateFatal i { s with out := o } = stateFatal i s := by cases i <;> rfl

/-- With any other output, a completed instruction does the same and appends the same event to it. -/
theorem completed_out (i : Instr) (s : State) (o : List OutEvent) :
    completed i { s with out := o } = { completed i s with out := o ++ (event i s).toList } := by
  have hsame : completed i { s with out := o } = { completed i s with out := newOut i { s with out := o } } := by
    cases i <;> rfl
  have hevent : event i { s with out := o } = event i s := by cases i <;> rfl
  rw [hsame, newOut_eq, hevent]

/-- With any other output, an error is the same and leaves that output. -/
theorem raise_out (s : State) (kind : FatalKind) (info : FaultInfo) (o : List OutEvent) :
    State.afterFatal { s with out := o } kind info = { s.afterFatal kind info with out := o ++ [] } := by
  rw [List.append_nil]
  rfl

/-- An instruction appends at most one event, the same one to any output, and does all else alike. -/
theorem exec_out (i : Instr) (s : State) : ∃ evs : List OutEvent, evs.length ≤ 1 ∧
    ∀ o, exec i { s with out := o } = mapNext (fun t => { t with out := o ++ evs }) (exec i s) := by
  simp only [exec_eq_outcome, outcome, checked, stateFatal_out]
  cases badOperand i with
  | some b => exact ⟨[], Nat.zero_le _, fun o => congrArg Host.Outcome.next (raise_out s _ _ o)⟩
  | none =>
    cases stateFatal i s with
    | some kind => exact ⟨[], Nat.zero_le _, fun o => congrArg Host.Outcome.next (raise_out s _ _ o)⟩
    | none =>
      exact ⟨(event i s).toList, Option.length_toList_le, fun o => congrArg Host.Outcome.next (completed_out i s o)⟩

/-- Settles O43: fetching reads memory and `pc` alone, and the instruction appends at most one event. -/
theorem outputIsAppendedAndNeverRead : Obligations.OutputIsAppendedAndNeverRead := by
  intro s
  by_cases hmode : s.mode = .running
  · cases hdecode : decode (s.mem.bytesFrom s.pc.toNat) with
    | ok r =>
      obtain ⟨evs, hlen, hexec⟩ := exec_out r.1 s
      refine ⟨evs, hlen, fun o => ?_⟩
      rw [step_of_runsAt (s := { s with out := o }) hmode ⟨r.2, hdecode⟩, step_of_runsAt hmode ⟨r.2, hdecode⟩]
      exact hexec o
    | error e =>
      refine ⟨[], Nat.zero_le _, fun o => ?_⟩
      rw [step_of_decode_error (s := { s with out := o }) hmode hdecode, step_of_decode_error hmode hdecode]
      exact congrArg Host.Outcome.next (raise_out s _ _ o)
  · refine ⟨[], Nat.zero_le _, fun o => ?_⟩
    cases hm : s.mode with
    | running => exact absurd hm hmode
    | _ => simp only [step, hm, mapNext]

/-! ## Memory -/

/-- A completed instruction that pushes, pushes above `pc + 1`: PUSH and CALL check the stack first (R44). -/
theorem pushed_room {i : Instr} {s : State} {v : Byte} (hsafe : stateFatal i s = none) (hv : pushed i s = some v) :
    s.pc.toNat + 1 < (s.sp - 1).toNat ∧ (s.sp - 1).toNat = s.sp.toNat - 1 := by
  have hroom : ¬ s.stackFull = true := by
    cases i with
    | push | call => simpa [stateFatal] using hsafe
    | _ => cases hv
  have hpred := State.sp_pred_toNat hroom
  rw [State.stackFull_iff] at hroom
  omega

theorem pushed_cases {i : Instr} {s : State} {v : Byte} (hlegal : badOperand i = none) (hv : pushed i s = some v) :
    ∃ r : Fin 8, i = .push (regByte r) ∨ i = .call (regByte r) := by
  cases i with
  | push a =>
    obtain ⟨r, rfl⟩ := exists_regByte_of_operand (b := a) hlegal (.head _)
    exact ⟨r, .inl rfl⟩
  | call a =>
    obtain ⟨r, rfl⟩ := exists_regByte_of_operand (b := a) hlegal (.head _)
    exact ⟨r, .inr rfl⟩
  | _ => cases hv

/-- A step writes no memory, or PUSH or CALL writes the cell below `sp`, which lies above `pc + 1`. -/
theorem step_memory {s t : State} (h : step s = .next t) :
    t.mem = s.mem ∨
    ((∃ r : Fin 8, RunsAt s (.push (regByte r)) ∨ RunsAt s (.call (regByte r))) ∧
      s.pc.toNat + 1 < (s.sp - 1).toNat ∧ (s.sp - 1).toNat = s.sp.toNat - 1 ∧
      ∀ addr, addr ≠ (s.sp - 1).toNat → t.mem.load addr = s.mem.load addr) := by
  obtain ⟨-, ⟨i, hrun, hsafe, hlegal, rfl⟩ | ⟨kind, info, -, -, rfl⟩⟩ := step_cases h
  · cases hv : pushed i s with
    | none => exact .inl (newMem_of_not_pushed hv)
    | some v =>
      obtain ⟨hroom, hpred⟩ := pushed_room hsafe hv
      refine .inr ⟨?_, hroom, hpred, fun addr haddr => newMem_load_other i s haddr⟩
      obtain ⟨r, rfl | rfl⟩ := pushed_cases hlegal hv
      · exact ⟨r, .inl hrun⟩
      · exact ⟨r, .inr hrun⟩
  · exact .inl rfl

/-- Settles O44: a step that changes memory is not one that writes none. -/
theorem onlyPushAndCallWriteMemory : Obligations.OnlyPushAndCallWriteMemory := by
  intro s t _ h hmem
  obtain hsame | ⟨hrun, hroom, -, hother⟩ := step_memory h
  · exact absurd hsame hmem
  · exact ⟨hrun, hroom, hother⟩

/-- Settles O45: the one cell a step can write lies above `pc + 1` and below `sp`, and the instruction that writes it is
two bytes long. -/
theorem stepsKeepOwnBytesAndTopCells : Obligations.StepsKeepOwnBytesAndTopCells := by
  intro s t h
  obtain hsame | ⟨⟨r, hrun⟩, hroom, hpred, hother⟩ := step_memory h
  · rw [hsame]
    exact ⟨fun _ _ => rfl, fun _ _ _ _ => rfl, fun _ _ _ => rfl⟩
  · refine ⟨fun addr haddr => hother addr (by omega), fun i addr hi haddr => hother addr ?_,
      fun hsp addr haddr => hother addr (by omega)⟩
    have hlen : (encode i).length = 2 := by
      obtain hrun | hrun := hrun
      · rw [runsAt_unique hi hrun]
        rfl
      · rw [runsAt_unique hi hrun]
        rfl
    omega

/-! ## CALL then RET -/

/-- The bytes at `pc` are an instruction of one byte. -/
theorem runsAt_ret {s : State} (hpc : s.pc.toNat < 256) (h : s.mem.load s.pc.toNat = 0x11) : RunsAt s .ret := by
  refine (runsAt_iff s .ret).2 ⟨s.mem.bytesFrom (s.pc.toNat + 1), ?_⟩
  rw [Memory.bytesFrom_cons _ hpc, h]
  rfl

theorem runsAt_call {s : State} {a : Byte} (hpc : s.pc.toNat + 1 < 256) (h : s.mem.load s.pc.toNat = 0x50)
    (ha : s.mem.load (s.pc.toNat + 1) = a) : RunsAt s (.call a) := by
  refine (runsAt_iff s (.call a)).2 ⟨s.mem.bytesFrom (s.pc.toNat + 1 + 1), ?_⟩
  rw [Memory.bytesFrom_cons _ (show _ < 256 by omega), Memory.bytesFrom_cons _ hpc, h, ha]
  rfl

/-- Settles O31: the CALL pushes `pc + 2`, and the RET at its target pops it. -/
theorem callThenRetReturns : Obligations.CallThenRetReturns := by
  intro a s hmode hcall ha hroom hsp hret htarget
  obtain ⟨hfits, m, hexec, hm⟩ := callFollowsItsRule.1 a s hroom
  have htargetPc : ((s.x[a].setWidth 9 : PcWord)).toNat = s.x[a].toNat := by
    rw [BitVec.toNat_setWidth]
    omega
  have hrunRet : RunsAt { s with mem := m, sp := s.sp - 1, pc := s.x[a].setWidth 9 } .ret := by
    refine runsAt_ret (by simp only [htargetPc]; omega) ?_
    simp only [htargetPc, hm, if_neg htarget, hret]
  have hpop := (retFollowsItsRule { s with mem := m, sp := s.sp - 1, pc := s.x[a].setWidth 9 }).1
    (sp_sub_one_ne_spInit hsp)
  have hstepCall := (step_of_runsAt hmode (runsAt_call (by omega) hcall ha)).trans hexec
  have hstepRet := (step_of_runsAt (by exact hmode) hrunRet).trans hpop
  refine ⟨_, _, hstepCall, rfl, hstepRet, ?_, BitVec.sub_add_cancel _ _, rfl, hmode⟩
  show ((m.load (s.sp - 1).toNat).setWidth 9 : PcWord).toNat = _
  rw [hm, if_pos rfl, BitVec.toNat_setWidth, BitVec.toNat_ofNat]
  omega

end Sys2Proof.StepProofs

/-! Proofs about reset and the invariant (10_state.md sections 3 to 7): every step keeps it. -/

namespace Sys2Proof.InvariantProofs

open Machine Claims FetchProofs EffectProofs StepProofs

/-! ## Reset -/

/-- Settles O50: the fields of the reset state; a register of eight equal ones is that one. -/
theorem resetHoldsTheSpecsValues : Obligations.ResetHoldsTheSpecsValues :=
  ⟨fun _ => rfl, rfl, fun i => Vector.getElem_replicate i.isLt, rfl, rfl, rfl, rfl, rfl⟩

/-- Settles O51, clause by clause on the reset state. -/
theorem resetMeetsTheInvariant : Obligations.ResetMeetsTheInvariant where
  memory := State.reset_mem_wf
  spLow := by decide
  spHigh := by decide
  flags := .inl rfl
  pcRange := by decide
  faulted := by decide
  record := fun _ h => nomatch h
  idlePc := fun _ => rfl

/-! ## Every step keeps the invariant -/

/-- The byte CMP writes is one of the three with one bit set (R15, R87). -/
theorem compareFlags_cases (va vb : Byte) :
    compareFlags va vb = 0x04 ∨ compareFlags va vb = 0x01 ∨ compareFlags va vb = 0x02 := by
  unfold compareFlags
  split
  · exact .inl rfl
  · split
    · exact .inr (.inl rfl)
    · exact .inr (.inr rfl)

theorem newMem_wf (i : Instr) {s : State} (h : s.mem.wf = true) : (newMem i s).wf = true := by
  unfold newMem
  split
  · exact Memory.store_wf _ (byte_lt_memSize _) h
  · exact h

/-- The flags stay among their four values (R15). -/
theorem newFl_flags (i : Instr) {s : State} (h : s.fl = 0x00 ∨ s.fl = 0x01 ∨ s.fl = 0x02 ∨ s.fl = 0x04) :
    newFl i s = 0x00 ∨ newFl i s = 0x01 ∨ newFl i s = 0x02 ∨ newFl i s = 0x04 := by
  cases i with
  | cmp a b =>
    obtain h | h | h := compareFlags_cases (regAt s a) (regAt s b)
    · exact .inr (.inr (.inr h))
    · exact .inr (.inl h)
    · exact .inr (.inr (.inl h))
  | _ => exact h

/-- A stack instruction that passed its check keeps `sp` in its range: a push has room above `pc + 2`, a pop starts
below the empty stack (R14). -/
theorem newSp_range {i : Instr} {s : State} (hsafe : stateFatal i s = none) (hlow : 2 ≤ s.sp.toNat)
    (hhigh : s.sp.toNat ≤ 0xF4) : 2 ≤ (newSp i s.sp).toNat ∧ (newSp i s.sp).toNat ≤ 0xF4 := by
  cases i with
  | push | call =>
    have hroom : ¬ s.stackFull = true := by simpa [stateFatal] using hsafe
    have hpred := State.sp_pred_toNat hroom
    rw [State.stackFull_iff] at hroom
    show 2 ≤ (s.sp - 1).toNat ∧ (s.sp - 1).toNat ≤ 0xF4
    omega
  | pop | ret =>
    have hne : s.sp ≠ 0xF4#8 := fun h => by simp [stateFatal, Config.spInit, h] at hsafe
    show 2 ≤ (s.sp + 1).toNat ∧ (s.sp + 1).toNat ≤ 0xF4
    bv_omega
  | _ => exact ⟨hlow, hhigh⟩

/-- An instruction inside memory ends with `pc` at most 256: past itself, or at a byte (R19). -/
theorem nextPc_range {i : Instr} {s : State} (hrun : RunsAt s i) : (nextPc i s).toNat ≤ 256 := by
  cases hgo : redirects s.fl i with
  | false =>
    rw [nextPc_of_not_redirects hgo, advance_toNat hrun]
    exact runsAt_length hrun
  | true =>
    obtain ⟨target, htarget⟩ := nextPc_of_redirects hgo
    rw [htarget, BitVec.toNat_setWidth]
    have := target.isLt
    omega

/-- A Running machine that meets the invariant has no fault record (R20, R21). -/
theorem fault_none_of_running {s : State} (hinv : Inv s) (hmode : s.mode = .running) : s.fault = none := by
  by_contra h
  exact absurd (hmode.symm.trans (hinv.faulted.2 h)) (by decide)

/-- Completing an instruction keeps the invariant. -/
theorem completed_inv {i : Instr} {s : State} (hinv : Inv s) (hmode : s.mode = .running) (hrun : RunsAt s i)
    (hsafe : stateFatal i s = none) : Inv (completed i s) := by
  have hfault : (completed i s).fault = none := show s.fault = none from fault_none_of_running hinv hmode
  obtain ⟨hlow, hhigh⟩ := newSp_range hsafe hinv.spLow hinv.spHigh
  exact {
    memory := newMem_wf i hinv.memory
    spLow := hlow
    spHigh := hhigh
    flags := newFl_flags i hinv.flags
    pcRange := nextPc_range hrun
    faulted := iff_of_false (completed_mode_ne_faulted i hmode) (not_not.2 hfault)
    record := fun r hr => nomatch hfault.symm.trans hr
    idlePc := fun hidle => by obtain ⟨-, h⟩ | ⟨-, h⟩ := completed_mode i hmode <;> cases h.symm.trans hidle }

/-- Raising an error that has its cause keeps the invariant. -/
theorem afterFatal_inv {s : State} {kind : FatalKind} {info : FaultInfo} (hinv : Inv s)
    (hfits : FaultRecordFits ⟨kind, s.pc, info⟩) : Inv (s.afterFatal kind info) :=
  { hinv with
    faulted := iff_of_true rfl (Option.some_ne_none _)
    record := fun r hr => by
      obtain rfl := Option.some.inj hr
      exact ⟨rfl, hfits⟩
    idlePc := fun hidle => nomatch hidle }

/-- Settles O52: a step completes an instruction that passed its checks, or raises an error that has its cause. -/
theorem stepKeepsTheInvariant : Obligations.StepKeepsTheInvariant := by
  intro s t hinv h
  obtain ⟨hmode, ⟨i, hrun, hsafe, -, rfl⟩ | ⟨kind, info, hcause, -, rfl⟩⟩ := step_cases h
  · exact completed_inv hinv hmode hrun hsafe
  · exact afterFatal_inv hinv (fits_of_cause hcause s.pc)

end Sys2Proof.InvariantProofs

/-! Proofs about the host's entry points and runs (60_exceptions.md section 4, 70_reset_and_hazards.md section 1). -/

namespace Sys2Proof.HostProofs

open Machine Claims EncodingProofs FetchProofs StepProofs InvariantProofs

/-! ## load_program -/

/-- A load that fits places the bytes and changes nothing else (R152). -/
theorem loadFrom_fits {bytes : List Byte} {i : Nat} (h : i + bytes.length ≤ 256) (s : State) :
    loadFrom bytes i s = .next { s with mem := placeBytes bytes i s.mem } := by
  induction bytes generalizing i s with
  | nil => rfl
  | cons b bs ih =>
    rw [List.length_cons] at h
    have hi : i < Config.memSize := show i < 256 by omega
    rw [loadFrom, memWrite_inRange hi, ih (by omega), placeBytes, if_pos hi]

/-- A load that does not fit places the bytes that have a cell, then raises at address 256 (R152). -/
theorem loadFrom_beyond {bytes : List Byte} {i : Nat} (hi : i ≤ 256) (h : 256 < i + bytes.length) (s : State) :
    loadFrom bytes i s = .next (State.afterFatal { s with mem := placeBytes (bytes.take (256 - i)) i s.mem }
      .outOfBoundsAccess (.address 256)) := by
  induction bytes generalizing i s with
  | nil =>
    rw [List.length_nil] at h
    omega
  | cons b bs ih =>
    rw [List.length_cons] at h
    by_cases hlt : i < Config.memSize
    · have hleft : 256 - i = (256 - (i + 1)) + 1 := by
        have : i < 256 := hlt
        omega
      rw [loadFrom, memWrite_inRange hlt, ih hlt (by omega), hleft, List.take_succ_cons, placeBytes, if_pos hlt]
    · obtain rfl : i = 256 := Nat.le_antisymm hi (Nat.le_of_not_lt hlt)
      exact memWrite_outOfRange (Nat.le_refl _) b s _

/-- What the cells hold after bytes that all have a cell were placed. -/
theorem load_placeBytes {bytes : List Byte} {i : Nat} (h : i + bytes.length ≤ 256) (m : Memory) (addr : Nat) :
    (placeBytes bytes i m).load addr =
      if i ≤ addr ∧ addr < i + bytes.length then bytes.getD (addr - i) 0 else m.load addr := by
  induction bytes generalizing i m with
  | nil => rw [placeBytes, if_neg (by simp only [List.length_nil]; omega)]
  | cons b bs ih =>
    rw [List.length_cons] at h ⊢
    have hi : i < Config.memSize := show i < 256 by omega
    rw [placeBytes, if_pos hi, ih (by omega)]
    by_cases heq : addr = i
    · subst heq
      rw [if_neg (by omega), if_pos (by omega), Memory.load_store_same, Nat.sub_self, List.getD_cons_zero]
    · by_cases hin : i + 1 ≤ addr ∧ addr < i + 1 + bs.length
      · have hsub : addr - i = (addr - (i + 1)) + 1 := by omega
        rw [if_pos hin, if_pos (by omega), hsub, List.getD_cons_succ]
      · rw [if_neg hin, if_neg (by omega), Memory.load_store_other _ _ heq]

/-- Settles O54, from what a load that fits and one that does not place. -/
theorem loadProgramFollowsItsRule : Obligations.LoadProgramFollowsItsRule := by
  intro bytes s
  refine ⟨fun hmode hlen => ?_, fun hmode hlen => ?_, fun hmode => if_neg hmode⟩
  · refine ⟨placeBytes bytes 0 s.mem, (if_pos hmode).trans (loadFrom_fits (by omega) s), fun addr => ?_⟩
    rw [load_placeBytes (by omega)]
    simp
  · have htake : (bytes.take 256).length = 256 := by
      rw [List.length_take]
      omega
    refine ⟨placeBytes (bytes.take 256) 0 s.mem, (if_pos hmode).trans (loadFrom_beyond (by omega) (by omega) s),
      fun addr haddr => ?_⟩
    rw [load_placeBytes (by omega), if_pos (by omega)]
    simp [List.getD_eq_getElem?_getD, haddr]

/-! ## run's start and introspection -/

/-- Settles O55, by the mode. -/
theorem runStartsOnlyWhenIdle : Obligations.RunStartsOnlyWhenIdle := fun _ =>
  ⟨fun h => if_pos h, fun h => if_neg h⟩

/-- Settles O58, by the mode and the range checks. -/
theorem introspectionFollowsItsRule : Obligations.IntrospectionFollowsItsRule := by
  intro s
  refine ⟨fun hmode => ⟨fun i => ?_, fun n hn => ?_, fun a ha => ?_, fun a ha => ?_⟩,
    fun hmode => ⟨fun n => if_pos hmode, fun a => if_pos hmode⟩⟩
  · rw [readRegister, if_neg hmode, dif_pos i.isLt]
    rfl
  · rw [readRegister, if_neg hmode, dif_neg (Nat.not_lt.2 hn)]
  · exact (if_neg hmode).trans (if_pos ha)
  · exact (if_neg hmode).trans (if_neg (Nat.not_lt.2 ha))

/-! ## The host's calls keep the invariant -/

/-- Loading, of any length, keeps the invariant. -/
theorem loadProgram_inv {bytes : List Byte} {s t : State} (hinv : Inv s) (h : loadProgram bytes s = .next t) :
    Inv t := by
  have hplaced (bs : List Byte) : Inv { s with mem := placeBytes bs 0 s.mem } :=
    { hinv with memory := placeBytes_wf bs 0 hinv.memory }
  by_cases hmode : s.mode = .idle
  · have hload : loadFrom bytes 0 s = .next t := (if_pos hmode).symm.trans h
    by_cases hlen : bytes.length ≤ 256
    · rw [loadFrom_fits (by omega), Host.Outcome.next.injEq] at hload
      exact hload ▸ hplaced bytes
    · rw [loadFrom_beyond (by omega) (by omega), Host.Outcome.next.injEq] at hload
      exact hload ▸ afterFatal_inv (hplaced _) (Nat.le_refl _)
  · exact nomatch (if_neg hmode).symm.trans h

/-- Starting a run keeps the invariant: an Idle machine has no fault record. -/
theorem startRun_inv {s t : State} (hinv : Inv s) (h : startRun s = .next t) : Inv t ∧ t.mode = .running := by
  by_cases hmode : s.mode = .idle
  · rw [(runStartsOnlyWhenIdle s).1 hmode, Host.Outcome.next.injEq] at h
    subst h
    have hfault : ¬ s.fault ≠ none := fun hne => nomatch hmode.symm.trans (hinv.faulted.2 hne)
    exact ⟨{ hinv with faulted := iff_of_false (by simp) hfault, idlePc := fun hidle => nomatch hidle }, rfl⟩
  · exact nomatch ((runStartsOnlyWhenIdle s).2 hmode).symm.trans h

/-- Settles O53, from the loader and from the start of a run. -/
theorem hostCallsKeepTheInvariant : Obligations.HostCallsKeepTheInvariant := by
  rintro s t hinv (⟨bytes, h⟩ | h)
  · exact loadProgram_inv hinv h
  · exact (startRun_inv hinv h).1

/-! ## Runs -/

/-- A run that starts answers where its steps end. -/
theorem run_of_start {s u : State} (h : startRun s = .next u) (fuel : Nat) : run fuel s = .ok (runSteps fuel u) := by
  simp only [run, h]

/-- A run that answers, answered from a start and steps. -/
theorem run_eq_ok {fuel : Nat} {s t : State} (h : run fuel s = .ok (some t)) :
    ∃ u, startRun s = .next u ∧ runSteps fuel u = some t := by
  unfold run at h
  split at h
  · next u hu => exact ⟨u, hu, Except.ok.inj h⟩
  · cases h
  · cases h

/-- A machine that is not Running takes no further step. -/
theorem runSteps_ended {fuel : Nat} {s : State} (hmode : s.mode ≠ .running) : runSteps fuel s = some s := by
  cases fuel <;> exact if_neg hmode

/-- A Running machine steps on. -/
theorem runSteps_succ {fuel : Nat} {s t : State} (hmode : s.mode = .running) (hstep : step s = .next t) :
    runSteps (fuel + 1) s = runSteps fuel t := by
  rw [runSteps, if_pos hmode, hstep]

/-- Steps that end, end at once when the machine is not Running, and else after a step. -/
theorem runSteps_cases {fuel : Nat} {s t : State} (h : runSteps fuel s = some t) :
    (s.mode ≠ .running ∧ t = s) ∨
    (∃ n u, fuel = n + 1 ∧ s.mode = .running ∧ step s = .next u ∧ runSteps n u = some t) := by
  by_cases hmode : s.mode = .running
  · obtain ⟨u, hu⟩ := runningMachineAlwaysSteps s hmode
    cases fuel with
    | zero => exact nomatch (if_pos hmode).symm.trans h
    | succ n => exact .inr ⟨n, u, rfl, hmode, hu, (runSteps_succ hmode hu).symm.trans h⟩
  · rw [runSteps_ended hmode] at h
    exact .inl ⟨hmode, (Option.some.inj h).symm⟩

/-- What every step keeps, holds where steps end; and the machine is not Running there. -/
theorem runSteps_keeps {P : State → Prop} (hkeep : ∀ s t, P s → step s = .next t → P t) {fuel : Nat} {s t : State}
    (hP : P s) (h : runSteps fuel s = some t) : P t ∧ t.mode ≠ .running := by
  induction fuel generalizing s with
  | zero =>
    obtain ⟨hmode, rfl⟩ | ⟨n, u, ⟨⟩, -⟩ := runSteps_cases h
    exact ⟨hP, hmode⟩
  | succ fuel ih =>
    obtain ⟨hmode, rfl⟩ | ⟨n, u, ⟨⟩, -, hstep, hrest⟩ := runSteps_cases h
    · exact ⟨hP, hmode⟩
    · exact ih (hkeep s u hP hstep) hrest

/-- Steps that end, end the same with more fuel. -/
theorem runSteps_more {fuel : Nat} (more : Nat) {s t : State} (h : runSteps fuel s = some t) :
    runSteps (fuel + more) s = some t := by
  induction fuel generalizing s with
  | zero =>
    obtain ⟨hmode, rfl⟩ | ⟨n, u, ⟨⟩, -⟩ := runSteps_cases h
    exact runSteps_ended hmode
  | succ fuel ih =>
    obtain ⟨hmode, rfl⟩ | ⟨n, u, ⟨⟩, hmode, hstep, hrest⟩ := runSteps_cases h
    · exact runSteps_ended hmode
    · rw [Nat.add_right_comm, runSteps_succ hmode hstep]
      exact ih hrest

/-- A step keeps the invariant and does not go back to Idle. -/
theorem step_keeps_inv_and_started (s t : State) (h : Inv s ∧ s.mode ≠ .idle) (hstep : step s = .next t) :
    Inv t ∧ t.mode ≠ .idle := by
  refine ⟨stepKeepsTheInvariant s t h.1 hstep, ?_⟩
  obtain ⟨-, hmode | hmode | hmode, -⟩ := haltedOnlyByHlt s t hstep <;> simp [hmode]

/-- Settles O56: where a started run ends, the machine is Halted, or Faulted with a record. -/
theorem endedRunReturnsItsManner : Obligations.EndedRunReturnsItsManner := by
  intro fuel s t hinv h
  obtain ⟨u, hstart, hsteps⟩ := run_eq_ok h
  obtain ⟨huinv, humode⟩ := startRun_inv hinv hstart
  obtain ⟨⟨htinv, hidle⟩, hrunning⟩ := runSteps_keeps step_keeps_inv_and_started ⟨huinv, by simp [humode]⟩ hsteps
  cases hmode : t.mode with
  | idle => exact absurd hmode hidle
  | running => exact absurd hmode hrunning
  | halted => exact .inl ⟨rfl, by simp only [State.runReturn, hmode]⟩
  | faulted =>
    obtain ⟨r, hr⟩ := Option.ne_none_iff_exists'.1 (htinv.faulted.1 hmode)
    exact .inr ⟨rfl, r, exitStatus r, hr, Nat.succ_ne_zero _, by simp only [State.runReturn, hmode, hr]⟩

/-- Settles O57: a run that answers has ended, and more fuel is not used. -/
theorem moreFuelDoesNotChangeARun : Obligations.MoreFuelDoesNotChangeARun := by
  intro fuel more s t h
  obtain ⟨u, hstart, hsteps⟩ := run_eq_ok h
  rw [run_of_start hstart, runSteps_more more hsteps]

/-! ## The first step of a loaded program -/

/-- Bytes that stand in the cells from `a` on are the first of those read from `a`. -/
theorem bytesFrom_eq_append {m : Memory} {bytes : List Byte} {a : Nat} (h : a + bytes.length ≤ 256)
    (hload : ∀ k < bytes.length, m.load (a + k) = bytes.getD k 0) :
    m.bytesFrom a = bytes ++ m.bytesFrom (a + bytes.length) := by
  induction bytes generalizing a with
  | nil => rfl
  | cons b bs ih =>
    rw [List.length_cons] at h hload ⊢
    have hfirst : m.load a = b := hload 0 (Nat.succ_pos _)
    have hrest (k : Nat) (hk : k < bs.length) : m.load (a + 1 + k) = bs.getD k 0 := by
      rw [Nat.add_right_comm]
      exact hload (k + 1) (Nat.succ_lt_succ hk)
    rw [Memory.bytesFrom_cons m (show a < 256 by omega), hfirst, ih (by omega) hrest, Nat.add_right_comm]
    rfl

/-- Settles O59: the loaded bytes stand at 0, where `pc` starts, so the first step decodes them. -/
theorem loadedProgramStartsAtZero : Obligations.LoadedProgramStartsAtZero := by
  intro bytes i rest hlen hdecode
  obtain ⟨m, hload, hm⟩ := (loadProgramFollowsItsRule bytes State.reset).1 rfl hlen
  have hbytes : m.bytesFrom 0 = bytes ++ m.bytesFrom (0 + bytes.length) :=
    bytesFrom_eq_append (by omega) fun k hk => by rw [Nat.zero_add, hm, if_pos hk]
  have hrun : RunsAt { State.reset with mem := m, mode := .running } i := by
    refine (runsAt_iff _ i).2 ⟨rest ++ m.bytesFrom (0 + bytes.length), ?_⟩
    rw [← List.append_assoc, ← eq_encode_append_of_decode hdecode]
    exact hbytes
  exact ⟨_, _, hload, rfl, step_of_runsAt rfl hrun⟩

/-- Settles O60: the byte at 0 after reset is 0, which is no opcode. -/
theorem emptyRunRaisesUnknownOpcode : Obligations.EmptyRunRaisesUnknownOpcode :=
  ⟨_, rfl, fetchErrorsInOrder.2.1 { State.reset with mode := .running } rfl (by decide) (by decide), rfl⟩

end Sys2Proof.HostProofs
